-- ==== Sys2Proof/Word.lean ====
section
/-! DEFINITION. The value types of the spec's notation (00_scope.md R6, R7). -/

namespace Sys2Proof

/-- `Byte` (R7): 8 bits, one cell of memory and one character of a string (`CW` of R6). -/
abbrev Byte := BitVec 8

/-- `Word` (R7): 32 bits, a hash value, an accumulator, an index, a capacity (`HW`, `IW` of R6). -/
abbrev Word := BitVec 32

/-- `Addr` (R7): an address of `AW` = 32 bits (R6; log 2). -/
abbrev Addr := BitVec 32

/-- A value on the command channel: the descriptor `CMD[127:0]` (30_encoding.md R61). -/
abbrev Command := BitVec 128

/-- A value on the response channel: `RSP[63:0]` (30_encoding.md R66). -/
abbrev Response := BitVec 64

/-- `zext_32` (00_scope.md R8): the `Word` of the same value as a `Byte`. -/
abbrev zext32 (c : Byte) : Word := c.zeroExtend 32

end Sys2Proof
end

