-- ==== Sys2Proof/Config.lean ====
section
/-! DEFINITION. What this hardware fixes (00_scope.md R6) and the values the spec leaves open. -/

namespace Sys2Proof.Config

/-- `NULL` (R6): the encoding of an absent bit-array reference. -/
abbrev null : Addr := 0x00000000#32

/-- `SENTINEL` (R6): the failure value of GETBIT and CHECK. -/
abbrev sentinel : Word := 0xFFFFFFFF#32

/-- `INIT1` (R6): the initial accumulator of hash1. -/
abbrev init1 : Word := 0x00001505#32

/-- `INIT2` (R6): the initial accumulator of hash2. -/
abbrev init2 : Word := 0x00000000#32

/-- `INIT3` (R6): the initial accumulator of hash3. -/
abbrev init3 : Word := 0x00000000#32

/-- The top address of the one memory space (20_memory.md R40). -/
abbrev topAddr : Addr := 0xFFFFFFFF#32

/-- The number of cells of the one memory space, 2^`AW` (20_memory.md R40). -/
abbrev spaceSize : Nat := 2 ^ 32

/-- What a cell that nothing has written reads as. DESIGN CHOICE (log 3): the spec gives the
contents of memory before the host writes it no value. Unsafe for a claim about a run that reads a
cell nobody wrote; every contents of the whole space is a `Memory`, so a claim over every state
does not rest on it. -/
abbrev unlistedByte : Byte := 0x00#8

/-- FREE VALUE (log 5): what the 32-bit working register numbered `reg` holds once the command is
over, at draw `draw`. The spec leaves it unspecified (10_state.md R23; 93_implementation_defined.md U6). -/
opaque freeWord (draw reg : Nat) : Word

/-- FREE VALUE (log 5): the same for an 8-bit working register. -/
opaque freeByte (draw reg : Nat) : Byte

/-- FREE VALUE (log 5): the same for the 2-bit `ERR`. -/
opaque freeErr (draw : Nat) : BitVec 2

end Sys2Proof.Config
end

