-- ==== Sys2Proof/Machine/State.lean ====
section
/-! DEFINITION. The state of the system: the engine, its memory, and the channels between engine and
host (10_state.md; 20_memory.md R40; 30_encoding.md R60), the reasons a step can stop, and reset. -/

namespace Sys2Proof.Machine

/-- Memory: a list of (address, byte) pairs, addresses strictly rising, no entry equal to
`Config.unlistedByte` (`Memory.wf` says so). -/
abbrev Memory := List Host.Cell

/-- The values of the status `ERR` (10_state.md R25; 60_exceptions.md R140). -/
inductive Err where
  | ok
  | nullStorage
  | indexRange
  | illegalCmd
deriving DecidableEq, Repr

/-- The working registers of one command (10_state.md R23). -/
structure Working where
  /-- `ACC1`: accumulator of hash1. -/
  acc1 : Word
  /-- `ACC2`: accumulator of hash2. -/
  acc2 : Word
  /-- `ACC3`: accumulator of hash3. -/
  acc3 : Word
  /-- `SPTR`: address of the next string byte to read. -/
  sptr : Addr
  /-- `CH`: the string byte just read. -/
  ch : Byte
  /-- `IDX1`: first reduced index. -/
  idx1 : Word
  /-- `IDX2`: second reduced index. -/
  idx2 : Word
  /-- `IDX3`: third reduced index. -/
  idx3 : Word
  /-- `BADDR`: address of the bit-array byte being accessed. -/
  baddr : Addr
  /-- `BMASK`: the single-bit mask. -/
  bmask : Byte
  /-- `BVAL`: the bit-array byte read. -/
  bval : Byte
  /-- `ERR`: the error status of the command. -/
  err : Err
deriving DecidableEq, Repr

/-- The working registers right after RESET. DESIGN CHOICE (log 4): the spec says unspecified
(10_state.md R30); the model names zero, and `OK` for `ERR`. -/
def Working.reset : Working where
  acc1 := 0
  acc2 := 0
  acc3 := 0
  sptr := 0
  ch := 0
  idx1 := 0
  idx2 := 0
  idx3 := 0
  baddr := 0
  bmask := 0
  bval := 0
  err := .ok

/-- The engine control state (10_state.md R28): `IDLE`, or `BUSY` with exactly one command accepted
and not yet responded to. -/
inductive Engine where
  | idle
  | busy (cmd : Command)
deriving DecidableEq, Repr

/-- One transfer of the memory channel (30_encoding.md R60 (c)): a single-byte read, with the byte
that came back, or a single-byte write. -/
inductive Access where
  | read (addr : Addr) (value : Byte)
  | write (addr : Addr) (value : Byte)
deriving DecidableEq, Repr

/-- What the host does to the engine and its memory (30_encoding.md R60; 70_reset_and_hazards.md
R160, R161, R165, R173). The first three wait until the engine is `IDLE`; the last two happen at
once, so they can land while a command is in flight (log 6). -/
inductive HostInput where
  /-- A descriptor presented on the command channel; accepted only when the engine is `IDLE`. -/
  | command (cmd : Command)
  /-- A host write between commands. -/
  | write (addr : Addr) (value : Byte)
  /-- `RESET` while the engine is `IDLE` (R160). -/
  | reset
  /-- A host write that does not wait for the response. -/
  | writeNow (addr : Addr) (value : Byte)
  /-- `RESET` that does not wait for the response (R161): of the command in flight, the first
  `done` byte accesses have been performed. -/
  | resetNow (done : Nat)
deriving DecidableEq, Repr

/-- The machine. -/
structure State where
  /-- The one memory space (20_memory.md R40). -/
  mem : Memory
  /-- The engine control state (10_state.md R28). -/
  engine : Engine
  /-- The working registers, live while a command is in flight (10_state.md R23). -/
  work : Working
  /-- What the host does next, oldest first. -/
  inputs : List HostInput
  /-- The responses delivered on the response channel, oldest first (30_encoding.md R60 (b)). -/
  responses : List Response
  /-- The byte accesses the engine has made on the memory channel, oldest first (30_encoding.md R60 (c)). -/
  bus : List Access
  /-- The model's own field: how many times free values have been drawn (log 5). -/
  draws : Nat
deriving DecidableEq, Repr

/-- Why the machine stops with a fault. -/
inductive Fault where
  /-- Raised by the step on a host write, while a command is in flight, to a cell of that command's
  string or bit array: the host breaks R165, and the spec has no such step (U4; log 8). Safe: the
  model stops where the spec gives the run no meaning. -/
  | foreignWrite
deriving DecidableEq, Repr

/-- Why the machine has no step. -/
inductive Refusal where
  /-- An instruction whose meaning the model does not give; raised by an arm of `exec` alone. Safe. -/
  | notModelled (mnemonic : String)
  /-- INSERT and CHECK with `NBITS` = 0 (42_string_ops.md R126; U1; log 10). Safe. -/
  | capacityZero
  /-- SETBIT, GETBIT, INSERT and CHECK when the addressed cell lies past 0xFFFFFFFF (20_memory.md
  R51; U2; log 9). Safe. -/
  | arrayPastTop
  /-- HASH1, HASH2, HASH3, INSERT and CHECK on a string with no null at or below 0xFFFFFFFF
  (40_hash_bank.md R81; U3; log 11). Safe. -/
  | stringUnterminated
deriving DecidableEq, Repr

/-- How a step ends. -/
abbrev Outcome := Host.Outcome State Fault Refusal

/-- The machine right after RESET (10_state.md R30; 70_reset_and_hazards.md R160), before the host
has supplied memory or commands: `IDLE`, nothing in flight, no response pending. -/
def State.reset : State where
  mem := []
  engine := .idle
  work := Working.reset
  inputs := []
  responses := []
  bus := []
  draws := 0

end Sys2Proof.Machine
end

