-- ==== Sys2Proof/Machine/Flags.lean ====
section
/-! DEFINITION. The engine's only status, `ERR` (10_state.md R25), its codes (60_exceptions.md R140)
and the response that carries it (30_encoding.md R66). -/

namespace Sys2Proof.Machine

/-- The 2-bit code of an error (60_exceptions.md R140). -/
def Err.code : Err → BitVec 2
  | .ok => 0
  | .nullStorage => 1
  | .indexRange => 2
  | .illegalCmd => 3

/-- The error of a 2-bit code. -/
def Err.ofCode (c : BitVec 2) : Err :=
  if c = 0 then .ok else if c = 1 then .nullStorage else if c = 2 then .indexRange else .illegalCmd

/-- `STATUS` (R66): `ERR` in bits 1..0, the other thirty bits 0. -/
def Err.status (e : Err) : Word := (0#30 ++ e.code : BitVec 32)

/-- `RSP = {RESULT, STATUS}` (R66). -/
def response (e : Err) (result : Word) : Response := (result ++ e.status : BitVec 64)

/-- `RESULT = RSP[63:32]` (R66). -/
def resultOf (r : Response) : Word := r.extractLsb' 32 32

/-- `STATUS = RSP[31:0]` (R66). -/
def statusOf (r : Response) : Word := r.extractLsb' 0 32

/-- `ERR = STATUS[1:0]` (R66). -/
def errOf (r : Response) : Err := .ofCode (r.extractLsb' 0 2)

end Sys2Proof.Machine
end

