-- ==== Sys2Proof/Machine/Operands.lean ====
section
/-! DEFINITION. The operand computations: index reduction and bit addressing (41_bit_primitives.md
R100, R101; 20_memory.md R41, R44, R51). -/

namespace Sys2Proof.Machine

/-- `reduce(h, n)` (R100): the unsigned remainder, and nothing for n = 0, where the spec gives none. -/
def reduce (h n : Word) : Option Word := if n = 0 then none else some (h % n)

/-- `byte_index(index)` (R101): floor(index / 8). -/
def byteIndex (index : Word) : Word := index >>> 3

/-- `bit_pos(index)` (R101): index mod 8. -/
def bitPos (index : Word) : Nat := (index &&& 7#32).toNat

/-- `mask(index)` (R101): the one-bit byte `1 << bit_pos`. -/
def mask (index : Word) : Byte := 1#8 <<< bitPos index

/-- `byte_addr(array, index)` (R101): the exact sum, and nothing where it passes 0xFFFFFFFF (U2). The
sum is never wrapped (R51). -/
def byteAddr (array : Addr) (index : Word) : Option Addr :=
  if array.toNat + (byteIndex index).toNat < Config.spaceSize then some (array + byteIndex index) else none

end Sys2Proof.Machine
end

