-- ==== Sys2Proof/Machine/Ops.lean ====
section
/-! DEFINITION. The named operations over memory, working registers and channels, which every
command is written in: `MemRead` and `MemWrite` (20_memory.md R42, R43), `raise` (60_exceptions.md
R145), `respond` (00_scope.md R9; 30_encoding.md R66). -/

namespace Sys2Proof.Machine

/-! ## Memory as data -/

/-- The byte a cell holds. -/
def Memory.read : Memory → Addr → Byte
  | [], _ => Config.unlistedByte
  | (b, v) :: m, a => if b = a.toNat then v else Memory.read m a

/-- Replaces the content of one cell, keeping the canonical form: a cell that now holds what an
unlisted address reads as is not listed. -/
def Memory.write : Memory → Addr → Byte → Memory
  | [], a, v => if v = Config.unlistedByte then [] else [(a.toNat, v)]
  | (b, w) :: m, a, v =>
    if b < a.toNat then (b, w) :: Memory.write m a v
    else if b = a.toNat then (if v = Config.unlistedByte then m else (b, v) :: m)
    else if v = Config.unlistedByte then (b, w) :: m
    else (a.toNat, v) :: (b, w) :: m

/-- The canonical form: addresses strictly rising and inside the space, no entry equal to what an
unlisted address reads as. -/
abbrev Memory.wf (m : Memory) : Prop :=
  m.Pairwise (fun x y => x.1 < y.1) ∧ ∀ c ∈ m, c.1 < Config.spaceSize ∧ c.2 ≠ Config.unlistedByte

/-- The bytes from address `p` up to, not including, the first null, over at most `fuel` cells. -/
def Memory.stringWithin (m : Memory) : Nat → Addr → Option (List Byte)
  | 0, _ => none
  | fuel + 1, p =>
    if m.read p = 0 then some []
    else (Memory.stringWithin m fuel (p + 1)).map (m.read p :: ·)

/-- The string at address `p` (40_hash_bank.md R80): its bytes without the null, and nothing when no
null lies at or below 0xFFFFFFFF. -/
def Memory.string (m : Memory) (p : Addr) : Option (List Byte) :=
  m.stringWithin (Config.spaceSize - p.toNat) p

/-! ## The memory channel -/

/-- `MemRead(addr, 1)` (20_memory.md R42): the byte, and the transfer on the memory channel. -/
def memRead (a : Addr) (s : State) : Byte × State :=
  (s.mem.read a, { s with bus := s.bus ++ [.read a (s.mem.read a)] })

/-- `MemWrite(addr, 1, v)` (20_memory.md R43). -/
def memWrite (a : Addr) (v : Byte) (s : State) : State :=
  { s with mem := s.mem.write a v, bus := s.bus ++ [.write a v] }

/-! ## Writes of the working registers (`name <- v`, 00_scope.md R9) -/

/-- `ACC1 <- v`. -/
def setAcc1 (v : Word) (s : State) : State := { s with work := { s.work with acc1 := v } }
/-- `ACC2 <- v`. -/
def setAcc2 (v : Word) (s : State) : State := { s with work := { s.work with acc2 := v } }
/-- `ACC3 <- v`. -/
def setAcc3 (v : Word) (s : State) : State := { s with work := { s.work with acc3 := v } }
/-- `SPTR <- v`. -/
def setSptr (v : Addr) (s : State) : State := { s with work := { s.work with sptr := v } }
/-- `CH <- v`. -/
def setCh (v : Byte) (s : State) : State := { s with work := { s.work with ch := v } }
/-- `IDX1 <- v`. -/
def setIdx1 (v : Word) (s : State) : State := { s with work := { s.work with idx1 := v } }
/-- `IDX2 <- v`. -/
def setIdx2 (v : Word) (s : State) : State := { s with work := { s.work with idx2 := v } }
/-- `IDX3 <- v`. -/
def setIdx3 (v : Word) (s : State) : State := { s with work := { s.work with idx3 := v } }
/-- `BADDR <- v`. -/
def setBaddr (v : Addr) (s : State) : State := { s with work := { s.work with baddr := v } }
/-- `BMASK <- v`. -/
def setBmask (v : Byte) (s : State) : State := { s with work := { s.work with bmask := v } }
/-- `BVAL <- v`. -/
def setBval (v : Byte) (s : State) : State := { s with work := { s.work with bval := v } }
/-- `ERR <- v`. -/
def setErr (v : Err) (s : State) : State := { s with work := { s.work with err := v } }

/-! ## Errors and the response -/

/-- `raise E` (60_exceptions.md R145): records the first error of the command. It saves nothing,
changes no mode and transfers no control, so there is nothing to return from (R148): the primitive
ends and the command goes on. -/
def raiseErr (e : Err) (s : State) : State := if s.work.err = .ok then setErr e s else s

/-- The working registers once a command is over: free values (log 5; U6). -/
def Working.free (draw : Nat) : Working where
  acc1 := Config.freeWord draw 0
  acc2 := Config.freeWord draw 1
  acc3 := Config.freeWord draw 2
  sptr := Config.freeWord draw 3
  ch := Config.freeByte draw 0
  idx1 := Config.freeWord draw 4
  idx2 := Config.freeWord draw 5
  idx3 := Config.freeWord draw 6
  baddr := Config.freeWord draw 7
  bmask := Config.freeByte draw 1
  bval := Config.freeByte draw 2
  err := .ofCode (Config.freeErr draw)

/-- `respond(status, result)` (00_scope.md R9): delivers the one response, which takes the engine
from `BUSY` to `IDLE` (10_state.md R28) and ends the life of the working registers (R23). -/
def respond (e : Err) (result : Word) (s : State) : State :=
  { s with
    engine := .idle
    work := Working.free s.draws
    responses := s.responses ++ [response e result]
    draws := s.draws + 1 }

/-- A command written in pseudocode steps, as an outcome: a `require` that fails refuses the command. -/
def finish : Except Refusal State → Outcome
  | .ok s => .next s
  | .error r => .refused r

end Sys2Proof.Machine
end

