-- ==== Sys2Proof/Machine/BitPrimitives.lean ====
section
/-! DEFINITION. The bit primitives `set_bit` and `get_bit` and the commands SETBIT and GETBIT
(41_bit_primitives.md R102 to R105). -/

namespace Sys2Proof.Machine

/-- `set_bit(array, index, n)` (R102): the null test, the range test, then one read and one write of
the addressed cell, the write also when the bit is already 1. -/
def setBit (array : Addr) (index n : Word) (s : State) : Except Refusal State :=
  if array = Config.null then .ok (raiseErr .nullStorage s)
  else if n ≤ index then .ok (raiseErr .indexRange s)
  else match byteAddr array index with
    | none => .error .arrayPastTop
    | some a =>
      let s := setBmask (mask index) (setBaddr a s)
      let r := memRead s.work.baddr s
      let s := setBval r.1 r.2
      .ok (memWrite s.work.baddr (s.work.bval ||| s.work.bmask) s)

/-- `get_bit(array, index, n)` (R103): the same tests, then one read; the bit, or `SENTINEL`. -/
def getBit (array : Addr) (index n : Word) (s : State) : Except Refusal (Word × State) :=
  if array = Config.null then .ok (Config.sentinel, raiseErr .nullStorage s)
  else if n ≤ index then .ok (Config.sentinel, raiseErr .indexRange s)
  else match byteAddr array index with
    | none => .error .arrayPastTop
    | some a =>
      let s := setBmask (mask index) (setBaddr a s)
      let r := memRead s.work.baddr s
      let s := setBval r.1 r.2
      .ok (if s.work.bval &&& s.work.bmask ≠ 0 then 1 else 0, s)

/-- SETBIT (R104). -/
def execSetbit (array : Addr) (index nbits : Word) (s : State) : Outcome := finish do
  let s := setErr .ok s
  let s ← setBit array index nbits s
  return respond s.work.err 0x00000000#32 s

/-- GETBIT (R105). -/
def execGetbit (array : Addr) (index nbits : Word) (s : State) : Outcome := finish do
  let s := setErr .ok s
  let (v, s) ← getBit array index nbits s
  return respond s.work.err v s

end Sys2Proof.Machine
end

