-- ==== Sys2Proof/Machine/HashBank.lean ====
section
/-! DEFINITION. The Hash Bank (40_hash_bank.md): the string fetch, the mixers, the hashes, and the
commands HASH1, HASH2, HASH3. -/

namespace Sys2Proof.Machine

/-! ## Reading the string -/

/-- The loop of `str_bytes` (R81). `fuel` bounds the number of reads; `strBytes` gives it the number
of cells from the string's first byte to the top of memory, so it never ends a loop that the
`require` would let go on. -/
def strLoop : Nat → List Byte → State → Except Refusal (List Byte × State)
  | 0, _, _ => .error .stringUnterminated
  | fuel + 1, bs, s =>
    let r := memRead s.work.sptr s
    let s := setCh r.1 r.2
    if s.work.ch = 0x00#8 then .ok (bs, s)
    else if s.work.sptr < Config.topAddr then
      strLoop fuel (bs ++ [s.work.ch]) (setSptr (s.work.sptr + 1) s)
    else .error .stringUnterminated

/-- `str_bytes(p)` (R81): the bytes of the string at `p` in order. -/
def strBytes (p : Addr) (s : State) : Except Refusal (List Byte × State) :=
  strLoop (Config.spaceSize - p.toNat) [] (setSptr p s)

/-! ## The mixers -/

/-- `mix1` (R82): the multiplicative mixer. -/
def mix1 (a : Word) (c : Byte) : Word := (a <<< 5) + a + zext32 c

/-- `mix2` (R83): the shift-add-subtract mixer. -/
def mix2 (a : Word) (c : Byte) : Word := zext32 c + (a <<< 6) + (a <<< 16) - a

/-- `mix3` (R84): the shift-XOR mixer; the right shift is logical and nothing rotates (C1). -/
def mix3 (a : Word) (c : Byte) : Word := a ^^^ ((a <<< 5) + (a >>> 2) + zext32 c)

/-! ## The hashes -/

/-- `hash1` (R85): the left fold of `mix1` from 5381. -/
def hash1 (bs : List Byte) : Word := bs.foldl mix1 Config.init1

/-- `hash2` (R86): the left fold of `mix2` from 0. -/
def hash2 (bs : List Byte) : Word := bs.foldl mix2 Config.init2

/-- `hash3` (R87): the left fold of `mix3` from 0. -/
def hash3 (bs : List Byte) : Word := bs.foldl mix3 Config.init3

/-! ## The commands -/

/-- HASH1 (R88). `ARRAY` and `NBITS` are ignored (30_encoding.md R62, R65). -/
def execHash1 (_array : Word) (strp : Addr) (_nbits : Word) (s : State) : Outcome := finish do
  let (bs, s) ← strBytes strp s
  let s := setAcc1 (hash1 bs) s
  return respond .ok s.work.acc1 s

/-- HASH2 (R89). -/
def execHash2 (_array : Word) (strp : Addr) (_nbits : Word) (s : State) : Outcome := finish do
  let (bs, s) ← strBytes strp s
  let s := setAcc2 (hash2 bs) s
  return respond .ok s.work.acc2 s

/-- HASH3 (R90). -/
def execHash3 (_array : Word) (strp : Addr) (_nbits : Word) (s : State) : Outcome := finish do
  let (bs, s) ← strBytes strp s
  let s := setAcc3 (hash3 bs) s
  return respond .ok s.work.acc3 s

end Sys2Proof.Machine
end

