-- ==== Sys2Proof/Machine/StringOps.lean ====
section
/-! DEFINITION. The string operations INSERT and CHECK (42_string_ops.md R120 to R122). -/

namespace Sys2Proof.Machine

/-- `reduce(h, n)` inside a command: n = 0 has no meaning (R126; U1). -/
def reduceOrRefuse (h n : Word) : Except Refusal Word :=
  match reduce h n with
  | none => .error .capacityZero
  | some i => .ok i

/-- `three_indices(strp, n)` (R120): the whole string is read, then the three hashes are reduced into
`IDX1`, `IDX2`, `IDX3`. -/
def threeIndices (strp : Addr) (n : Word) (s : State) : Except Refusal State := do
  let (bs, s) ← strBytes strp s
  let s := setAcc3 (hash3 bs) (setAcc2 (hash2 bs) (setAcc1 (hash1 bs) s))
  let i1 ← reduceOrRefuse s.work.acc1 n
  let i2 ← reduceOrRefuse s.work.acc2 n
  let i3 ← reduceOrRefuse s.work.acc3 n
  return setIdx3 i3 (setIdx2 i2 (setIdx1 i1 s))

/-- INSERT (R121). -/
def execInsert (array strp : Addr) (nbits : Word) (s : State) : Outcome := finish do
  let s := setErr .ok s
  let s ← threeIndices strp nbits s
  let s ← setBit array s.work.idx1 nbits s
  let s ← setBit array s.work.idx2 nbits s
  let s ← setBit array s.work.idx3 nbits s
  return respond s.work.err 0x00000000#32 s

/-- The answer of CHECK (R122) from the three bits read: the sentinel on an error, else 1 exactly
when all three are 1. -/
def checkResult (e : Err) (b1 b2 b3 : Word) : Word :=
  if e ≠ .ok then Config.sentinel
  else if b1 = 1 ∧ b2 = 1 ∧ b3 = 1 then 0x00000001#32
  else 0x00000000#32

/-- CHECK (R122): all three reads are always made. -/
def execCheck (array strp : Addr) (nbits : Word) (s : State) : Outcome := finish do
  let s := setErr .ok s
  let s ← threeIndices strp nbits s
  let (b1, s) ← getBit array s.work.idx1 nbits s
  let (b2, s) ← getBit array s.work.idx2 nbits s
  let (b3, s) ← getBit array s.work.idx3 nbits s
  return respond s.work.err (checkResult s.work.err b1 b2 b3) s

end Sys2Proof.Machine
end

