-- ==== Sys2Proof/Syntax.lean ====
section
/-! DEFINITION. The seven commands of BF3 version 1 (30_encoding.md R63), one constructor a row of
spec/opcode_table.json. -/

namespace Sys2Proof

/-- A decoded command. Every constructor holds the three 32-bit fields of the descriptor (R61) in
the descriptor's order `ARRAY`, `ARG`, `NBITS`; `ARG` bears the name it is read under (R62). HASH1,
HASH2 and HASH3 carry `ARRAY` and `NBITS` although they ignore them (R62, R65), so that no bit of a
descriptor is lost in decoding (log 17). -/
inductive Instr where
  /-- HASH1 (40_hash_bank.md R88). -/
  | hash1 (array : Word) (strp : Addr) (nbits : Word)
  /-- HASH2 (40_hash_bank.md R89). -/
  | hash2 (array : Word) (strp : Addr) (nbits : Word)
  /-- HASH3 (40_hash_bank.md R90). -/
  | hash3 (array : Word) (strp : Addr) (nbits : Word)
  /-- SETBIT (41_bit_primitives.md R104). -/
  | setbit (array : Addr) (index : Word) (nbits : Word)
  /-- GETBIT (41_bit_primitives.md R105). -/
  | getbit (array : Addr) (index : Word) (nbits : Word)
  /-- INSERT (42_string_ops.md R121). -/
  | insert (array : Addr) (strp : Addr) (nbits : Word)
  /-- CHECK (42_string_ops.md R122). -/
  | check (array : Addr) (strp : Addr) (nbits : Word)
deriving DecidableEq, Repr

namespace Instr

/-- The field `ARRAY` of the command (R61). -/
def array : Instr → Addr
  | hash1 a _ _ | hash2 a _ _ | hash3 a _ _ | setbit a _ _ | getbit a _ _ | insert a _ _ | check a _ _ => a

/-- The field `ARG` of the command (R61), whichever way it is read. -/
def arg : Instr → Word
  | hash1 _ x _ | hash2 _ x _ | hash3 _ x _ | setbit _ x _ | getbit _ x _ | insert _ x _ | check _ x _ => x

/-- The field `NBITS` of the command (R61). -/
def nbits : Instr → Word
  | hash1 _ _ n | hash2 _ _ n | hash3 _ _ n | setbit _ _ n | getbit _ _ n | insert _ _ n | check _ _ n => n

/-- The operation code of the command (R63). -/
def opcode : Instr → BitVec 8
  | hash1 .. => 0x01#8
  | hash2 .. => 0x02#8
  | hash3 .. => 0x03#8
  | setbit .. => 0x04#8
  | getbit .. => 0x05#8
  | insert .. => 0x06#8
  | check .. => 0x07#8

/-- The command reads a string at `ARG` (R62). -/
def readsString : Instr → Bool
  | hash1 .. | hash2 .. | hash3 .. | insert .. | check .. => true
  | setbit .. | getbit .. => false

/-- The command uses the bit array (R62). -/
def usesArray : Instr → Bool
  | setbit .. | getbit .. | insert .. | check .. => true
  | hash1 .. | hash2 .. | hash3 .. => false

end Instr
end Sys2Proof
end

