-- ==== Sys2Proof/Machine/Dispatch.lean ====
section
/-! DEFINITION. One arm per command: its meaning. -/

namespace Sys2Proof.Machine

def exec (i : Instr) (s : State) : Host.Outcome State Fault Refusal :=
  match i with
  | .hash1 array strp nbits => Sys2Proof.Machine.execHash1 array strp nbits s
  | .hash2 array strp nbits => Sys2Proof.Machine.execHash2 array strp nbits s
  | .hash3 array strp nbits => Sys2Proof.Machine.execHash3 array strp nbits s
  | .setbit array index nbits => Sys2Proof.Machine.execSetbit array index nbits s
  | .getbit array index nbits => Sys2Proof.Machine.execGetbit array index nbits s
  | .insert array strp nbits => Sys2Proof.Machine.execInsert array strp nbits s
  | .check array strp nbits => Sys2Proof.Machine.execCheck array strp nbits s

end Sys2Proof.Machine
end

