-- ==== Sys2Proof/WellFormed.lean ====
section
/-! DEFINITION. Which descriptors are commands (30_encoding.md R63, R64), and which commands are
spelled as the spec's assembler spells them (R69).

The fields of `Instr` are bit vectors of the descriptor's own widths and every value of `ARRAY`,
`ARG` and `NBITS` is encodable in every command (R65), so no term of `Instr` is ill-formed: the
checks stand on the 128-bit descriptor, where a value can be illegal, and on the assembler's form. -/

namespace Sys2Proof

/-- The field `OP`, `CMD[7:0]` (R61). -/
def Command.op (c : Command) : BitVec 8 := c.extractLsb' 0 8

/-- The field `RSV0`, `CMD[31:8]` (R61). -/
def Command.rsv0 (c : Command) : BitVec 24 := c.extractLsb' 8 24

/-- The field `ARRAY`, `CMD[63:32]` (R61). -/
def Command.array (c : Command) : Word := c.extractLsb' 32 32

/-- The field `ARG`, `CMD[95:64]` (R61). -/
def Command.arg (c : Command) : Word := c.extractLsb' 64 32

/-- The field `NBITS`, `CMD[127:96]` (R61). -/
def Command.nbits (c : Command) : Word := c.extractLsb' 96 32

/-- The descriptor is one of the seven commands: `RSV0` is 0 and `OP` is 0x01 to 0x07 (R63, R64). -/
def Command.wellFormed (c : Command) : Bool :=
  c.rsv0 == 0 && decide (1 ≤ c.op.toNat ∧ c.op.toNat ≤ 7)

/-- The command as the assembler of R69 writes it: 0 in the ignored fields of a HASH command. -/
def Instr.assembled : Instr → Bool
  | .hash1 a _ n | .hash2 a _ n | .hash3 a _ n => a == 0 && n == 0
  | .setbit .. | .getbit .. | .insert .. | .check .. => true

end Sys2Proof
end

