-- ==== Sys2Proof/Decode.lean ====
section
/-! DEFINITION. The decoder, total on every 128-bit value (30_encoding.md R61 to R65), the encoder
beside it, and the assembly notation of R69. -/

namespace Sys2Proof

/-- Why a descriptor is illegal (R64). The engine answers all three alike. -/
inductive Illegal where
  /-- `RSV0` is not 0. -/
  | reservedField
  /-- `OP` is 0x00. -/
  | opcodeZero
  /-- `OP` is 0x08 to 0xFF. -/
  | opcodeReserved
deriving DecidableEq, Repr

/-- The decoder (R61, R63, R64): `CMD[31:0]` selects the command, the other three words are its
fields at full width. -/
def decode (c : Command) : Except Illegal Instr :=
  if c.rsv0 ≠ 0 then .error .reservedField
  else if c.op = 0x00#8 then .error .opcodeZero
  else if c.op = 0x01#8 then .ok (.hash1 c.array c.arg c.nbits)
  else if c.op = 0x02#8 then .ok (.hash2 c.array c.arg c.nbits)
  else if c.op = 0x03#8 then .ok (.hash3 c.array c.arg c.nbits)
  else if c.op = 0x04#8 then .ok (.setbit c.array c.arg c.nbits)
  else if c.op = 0x05#8 then .ok (.getbit c.array c.arg c.nbits)
  else if c.op = 0x06#8 then .ok (.insert c.array c.arg c.nbits)
  else if c.op = 0x07#8 then .ok (.check c.array c.arg c.nbits)
  else .error .opcodeReserved

/-- The descriptor with the given fields and `RSV0` = 0: `CMD = {W3, W2, W1, W0}` (R61). -/
def packCommand (op : BitVec 8) (array arg nbits : Word) : Command :=
  nbits ++ (arg ++ (array ++ (0#24 ++ op)))

/-- The encoder (R61, R63). -/
def encode (i : Instr) : Command := packCommand i.opcode i.array i.arg i.nbits

/-- The opcode-table word `w` of `nbits` bits as a descriptor: the table numbers bits as `CMD` does,
and the bits above `nbits` are 0. -/
def commandOfTableWord (nbits w : Nat) : Command := BitVec.ofNat 128 (w % 2 ^ nbits)

/-- What the decoder reads from an instruction whose bits are `w`, numbered as
spec/opcode_table.json numbers them. A descriptor is one value on a channel, not bytes in memory,
so no byte order is involved (20_memory.md R45). -/
def decodeTableWord (nbits w : Nat) : Option Instr :=
  match decode (commandOfTableWord nbits w) with
  | .ok i => some i
  | .error _ => none

/-! The assembly notation of R69: the assembler writes 0 into the ignored fields. -/

/-- `HASH1 strp`. -/
def asmHash1 (strp : Addr) : Command := encode (.hash1 0 strp 0)
/-- `HASH2 strp`. -/
def asmHash2 (strp : Addr) : Command := encode (.hash2 0 strp 0)
/-- `HASH3 strp`. -/
def asmHash3 (strp : Addr) : Command := encode (.hash3 0 strp 0)
/-- `SETBIT array, index, nbits`. -/
def asmSetbit (array : Addr) (index nbits : Word) : Command := encode (.setbit array index nbits)
/-- `GETBIT array, index, nbits`. -/
def asmGetbit (array : Addr) (index nbits : Word) : Command := encode (.getbit array index nbits)
/-- `INSERT array, strp, nbits`. -/
def asmInsert (array strp : Addr) (nbits : Word) : Command := encode (.insert array strp nbits)
/-- `CHECK array, strp, nbits`. -/
def asmCheck (array strp : Addr) (nbits : Word) : Command := encode (.check array strp nbits)

end Sys2Proof
end

