-- ==== Sys2Proof/Machine/HostSide.lean ====
section
/-! DEFINITION. What happens at the channels: accepting a command, RESET, host writes, a command
abandoned by RESET (10_state.md R23, R25, R28, R30; 30_encoding.md R60, R64, R70;
70_reset_and_hazards.md R160, R161, R165, R173). -/

namespace Sys2Proof.Machine

/-- The input happens at once; the others wait until the engine is `IDLE`. -/
def HostInput.now : HostInput → Bool
  | .writeNow .. | .resetNow .. => true
  | .command .. | .write .. | .reset => false

/-- The working registers as a command starts (10_state.md R23, R25): the initial values of the
table; the registers it gives none keep what they hold. -/
def Working.start (cmd : Command) (w : Working) : Working :=
  { w with acc1 := Config.init1, acc2 := Config.init2, acc3 := Config.init3, sptr := cmd.arg, err := .ok }

/-- Acceptance of a command: `IDLE` to `BUSY` (10_state.md R28; 30_encoding.md R60 (a)). -/
def accept (cmd : Command) (s : State) : State :=
  { s with engine := .busy cmd, work := s.work.start cmd }

/-- The RESET event (70_reset_and_hazards.md R160; 10_state.md R30): `IDLE`, no command in flight,
the working registers as the model names them (log 4), memory untouched. -/
def applyReset (s : State) : State := { s with engine := .idle, work := Working.reset }

/-- A host write to memory (70_reset_and_hazards.md R173); not a transfer of the engine's channel. -/
def hostWrite (a : Addr) (v : Byte) (s : State) : State := { s with mem := s.mem.write a v }

/-- The answer to an illegal descriptor (30_encoding.md R64): the decoder's verdict goes to `ERR`
(10_state.md R25), and no memory access is made. -/
def answerIllegal (s : State) : State :=
  let s := setErr .illegalCmd s
  respond s.work.err Config.sentinel s

/-- The effect of one access on memory. -/
def Access.apply (m : Memory) : Access → Memory
  | .read _ _ => m
  | .write a v => m.write a v

/-- RESET during a command (70_reset_and_hazards.md R161; log 7): `whole` is how the command would
have ended; of its byte accesses the first `done` have been performed, and no response comes. A
command with no meaning has none when it is cut short either (log 13). -/
def abandon (done : Nat) (s : State) (whole : Outcome) : Outcome :=
  match whole with
  | .next t =>
    let made := (t.bus.drop s.bus.length).take done
    .next (applyReset { s with mem := made.foldl Access.apply s.mem, bus := s.bus ++ made })
  | .fault r => .fault r
  | .refused r => .refused r

/-- The cell `a` belongs to the string at `p`, its null included; an unterminated string takes all
cells up to the top. -/
def inString (m : Memory) (p a : Addr) : Bool :=
  match m.string p with
  | some bs => decide (p.toNat ≤ a.toNat ∧ a.toNat ≤ p.toNat + bs.length)
  | none => decide (p.toNat ≤ a.toNat)

/-- The cell `a` belongs to the bit array of capacity `n` at `array` (20_memory.md R51):
`ceil(n / 8)` cells, none for `NULL`. -/
def inArray (array : Addr) (n : Word) (a : Addr) : Bool :=
  decide (array ≠ Config.null ∧ array.toNat ≤ a.toNat ∧ a.toNat < array.toNat + (n.toNat + 7) / 8)

/-- The cell belongs to the string or the bit array of the command (70_reset_and_hazards.md R165);
an illegal descriptor has neither. -/
def inUse (cmd : Command) (m : Memory) (a : Addr) : Bool :=
  match decode cmd with
  | .ok i => (i.readsString && inString m i.arg a) || (i.usesArray && inArray i.array i.nbits a)
  | .error _ => false

/-! The data directives of 30_encoding.md R70, as host writes. They describe initial memory and are no
commands. -/

/-- `.byte addr, v`. -/
def byteDirective (a : Addr) (v : Byte) : List HostInput := [.write a v]

/-- The bytes `vs` from `addr` upward. DESIGN CHOICE (log 18): R70 does not say what a directive means
whose bytes run past 0xFFFFFFFF; here `a + 1` wraps, so the bytes left go to address 0 and up. No
command of the engine uses this. -/
def bytesDirective : Addr → List Byte → List HostInput
  | _, [] => []
  | a, v :: vs => .write a v :: bytesDirective (a + 1) vs

/-- `.zero addr, n`. -/
def zeroDirective (a : Addr) (n : Nat) : List HostInput := bytesDirective a (List.replicate n 0)

/-- `.asciz addr, "text"`: the bytes of the text and one null. -/
def ascizDirective (a : Addr) (text : List Byte) : List HostInput := bytesDirective a (text ++ [0])

end Sys2Proof.Machine
end

