-- ==== Sys2Proof/Machine/Engine.lean ====
section
/-! DEFINITION. The engine's two conditions, `IDLE` and `BUSY` (10_state.md R28): what one step does
in each. -/

namespace Sys2Proof.Machine

/-- Executes the command in flight to its response (00_scope.md R13): the decoder's verdict first
(60_exceptions.md R146), then the command. -/
def runCommand (cmd : Command) (s : State) : Outcome :=
  match decode cmd with
  | .ok i => exec i s
  | .error _ => .next (answerIllegal s)

/-- A step of the engine while `BUSY`: the command runs to its response, unless the next host input
does not wait for it. Inputs that wait stay where they are. -/
def busyStep (cmd : Command) (s : State) : Outcome :=
  match s.inputs with
  | .resetNow done :: rest =>
    abandon done { s with inputs := rest } (runCommand cmd { s with inputs := rest })
  | .writeNow a v :: rest =>
    if inUse cmd s.mem a then .fault .foreignWrite else .next (hostWrite a v { s with inputs := rest })
  | .command _ :: _ => runCommand cmd s
  | .write _ _ :: _ => runCommand cmd s
  | .reset :: _ => runCommand cmd s
  | [] => runCommand cmd s

/-- A step while `IDLE`: the next host input takes place; with none the engine waits
(70_reset_and_hazards.md R160, R173). -/
def idleStep (s : State) : Outcome :=
  match s.inputs with
  | [] => .next s
  | .command cmd :: rest => .next (accept cmd { s with inputs := rest })
  | .write a v :: rest => .next (hostWrite a v { s with inputs := rest })
  | .writeNow a v :: rest => .next (hostWrite a v { s with inputs := rest })
  | .reset :: rest => .next (applyReset { s with inputs := rest })
  | .resetNow _ :: rest => .next (applyReset { s with inputs := rest })

/-- One step of the system. -/
def engineStep (s : State) : Outcome :=
  match s.engine with
  | .idle => idleStep s
  | .busy cmd => busyStep cmd s

/-- The state in which the very next step runs the descriptor `cmd`: it has been accepted, and no
input that would come before its execution stands first. -/
def withCommand (cmd : Command) (s : State) : State :=
  accept cmd { s with inputs := s.inputs.dropWhile HostInput.now }

end Sys2Proof.Machine
end

