-- ==== Sys2Proof/Machine/Step.lean ====
section
/-! DEFINITION. The step of the system, and the command placed where the step takes its next one. -/

namespace Sys2Proof.Machine

/-- One step: a host input at the idle engine, or the command in flight executed to its response. -/
def step : State → Host.Outcome State Fault Refusal := engineStep

/-- `s` with the instruction whose bits are `w` accepted on the command channel, so that the next
step runs it. Nothing is fetched from memory on this hardware (10_state.md R24; log 14). -/
def State.withFetchWord (s : State) (nbits w : Nat) : State := withCommand (commandOfTableWord nbits w) s

end Sys2Proof.Machine
end

