-- ==== Sys2Proof/Safety.lean ====
section
/-! DEFINITION. The terms in which claims about the engine are stated: what a completed command
leaves, the accesses it makes, the host's duties, runs, and the invariant of the system. -/

namespace Sys2Proof.Machine

/-! ## What a completed command leaves -/

/-- `s` after a command that left memory `m`, made the accesses `made` and answered `e`, `result`:
the engine is `IDLE`, one response more is delivered, nothing else of the system has changed. The
working registers are gone, so they hold free values (log 5): nothing is claimed of them. -/
def completed (m : Memory) (made : List Access) (e : Err) (result : Word) (s : State) : State :=
  { s with
    mem := m
    bus := s.bus ++ made
    engine := .idle
    work := Working.free s.draws
    responses := s.responses ++ [response e result]
    draws := s.draws + 1 }

/-- The last response delivered. -/
def lastResponse (o : Outcome) : Option Response :=
  match o with
  | .next t => t.responses.getLast?
  | .fault _ | .refused _ => none

/-- The reads of the string fetch (40_hash_bank.md R81): each byte and then the null, in ascending order. -/
def stringReads (p : Addr) : List Byte → List Access
  | [] => [.read p 0x00#8]
  | c :: cs => .read p c :: stringReads (p + 1) cs

/-- The read-write pair of a successful `set_bit` on cell `a` (41_bit_primitives.md R102). -/
def setAccesses (m : Memory) (a : Addr) (index : Word) : List Access :=
  [.read a (m.read a), .write a (m.read a ||| mask index)]

/-- Memory after a successful `set_bit` on cell `a`: `array[byte_index] |= mask` (R102). -/
def Memory.setBitIn (m : Memory) (a : Addr) (index : Word) : Memory := m.write a (m.read a ||| mask index)

/-- The bit of cell `a` at the position of `index` (20_memory.md R44), as a `Word` 0 or 1. -/
def Memory.bitIn (m : Memory) (a : Addr) (index : Word) : Word :=
  if (m.read a).getLsbD (index.toNat % 8) then 1 else 0

/-- The bit at position `k` of cell `a` is 1. -/
def Memory.bitSet (m : Memory) (a : Addr) (k : Nat) : Prop := (m.read a).getLsbD k = true

/-- Every read of the sequence gives what the cell holds at that point: the last write to it, by the
command itself or before it (20_memory.md R48, R52). -/
def coherent : Memory → List Access → Prop
  | _, [] => True
  | m, .read a v :: l => m.read a = v ∧ coherent m l
  | m, .write a v :: l => coherent (m.write a v) l

/-! ## The host's duties (70_reset_and_hazards.md R162 to R168) -/

/-- The string at `p` is terminated (R167). -/
def Memory.terminated (m : Memory) (p : Addr) : Prop :=
  ∃ q : Addr, p.toNat ≤ q.toNat ∧ m.read q = 0

/-- The bit array of capacity `n` at `array` ends at or below the top address (R167; 20_memory.md R51). -/
def arrayFits (array : Addr) (n : Word) : Prop :=
  array.toNat + (n.toNat + 7) / 8 ≤ Config.spaceSize

/-- Every cell of the bit array holds 0, as the host leaves it before the first INSERT (R162, R163). -/
def zeroed (m : Memory) (array : Addr) (n : Word) : Prop :=
  ∀ b : Addr, array.toNat ≤ b.toNat → b.toNat < array.toNat + (n.toNat + 7) / 8 → m.read b = 0

/-- The duties that give a command its meaning: a terminated string where it reads one, a fitting
array and a positive capacity where it uses them (R166, R167). -/
def dutiesMet (m : Memory) : Instr → Prop
  | .hash1 _ p _ | .hash2 _ p _ | .hash3 _ p _ => m.terminated p
  | .setbit a _ n | .getbit a _ n => a = Config.null ∨ arrayFits a n
  | .insert a p n | .check a p n => m.terminated p ∧ n ≠ 0 ∧ (a = Config.null ∨ arrayFits a n)

/-! ## Runs -/

/-- What happens at the `IDLE` engine in a run (70_reset_and_hazards.md R160, R165, R173): a command
from its acceptance to its response, a host write between commands, RESET between commands. -/
inductive Event where
  | command (cmd : Command)
  | write (addr : Addr) (value : Byte)
  | reset
deriving DecidableEq, Repr

/-- The host input that brings the event about. -/
def Event.input : Event → HostInput
  | .command c => .command c
  | .write a v => .write a v
  | .reset => .reset

/-- How many steps the event takes: a command two, its acceptance and its execution (log 1). -/
def Event.stepCount : Event → Nat
  | .command _ => 2
  | .write _ _ => 1
  | .reset => 1

/-- What the event does, a command as a whole. -/
def Event.effect : Event → State → Outcome
  | .command c, s => runCommand c s
  | .write a v, s => .next (hostWrite a v s)
  | .reset, s => .next (applyReset s)

/-- The events one after another, each on what the one before left (70_reset_and_hazards.md R173). -/
def runEvents : List Event → State → Outcome
  | [], s => .next s
  | e :: es, s =>
    match e.effect s with
    | .next t => runEvents es t
    | .fault r => .fault r
    | .refused r => .refused r

/-- Of the host writes among the events none is to a cell of the bit array of capacity `n` at `array`
(the proviso of 42_string_ops.md R123). -/
def sparesArray (array : Addr) (n : Word) (es : List Event) : Prop :=
  ∀ a v, Event.write a v ∈ es → inArray array n a = false

/-- `k` steps of the system, stopping at the first fault or refusal. -/
def steps : Nat → State → Outcome
  | 0, s => .next s
  | k + 1, s =>
    match step s with
    | .next t => steps k t
    | .fault r => .fault r
    | .refused r => .refused r

/-- The run has ended (R173): `IDLE`, nothing in flight, nothing the host still does. -/
def State.ended (s : State) : Prop := s.engine = .idle ∧ s.inputs = []

/-- No host input comes before the execution of the command in flight. -/
def State.undisturbed (s : State) : Prop := ∀ x ∈ s.inputs.head?, x.now = false

/-! ## The invariant -/

/-- A response the engine may deliver (30_encoding.md R66, R67): `STATUS[31:2]` is 0, an error comes
with 0 or the sentinel, and an illegal command with the sentinel. -/
def legalResponse (r : Response) : Prop :=
  (statusOf r).toNat < 4 ∧
  (errOf r ≠ .ok → resultOf r = 0 ∨ resultOf r = Config.sentinel) ∧
  (errOf r = .illegalCmd → resultOf r = Config.sentinel)

/-- The invariant of the system: memory keeps its canonical form, and every response delivered is
one the engine may deliver. -/
def Inv (s : State) : Prop := s.mem.wf ∧ ∀ r ∈ s.responses, legalResponse r

end Sys2Proof.Machine
end

