-- ==== Sys2Proof/Certificates/Slice0/Obligations.lean ====
section
/-! DEFINITION. The statements for the provers. Each docstring names the rule of spec/ it formalises.
No statement rests on a free value (log 5) or on the value of an unlisted byte (log 3). -/

open Sys2Proof Sys2Proof.Machine

/-! ## Encoding (30_encoding.md) -/

/-- R61, R63, R65: no bit of a command is dropped, for all seven commands and every value of every
field, the ignored fields included. -/
def Obligations.DecodeOfEncodeGivesTheCommand : Prop :=
  ∀ i : Instr, decode (encode i) = .ok i

/-- R61, R63, R64: a descriptor that decodes is the encoding of what it decodes to. -/
def Obligations.EncodeOfDecodeGivesTheDescriptor : Prop :=
  ∀ (c : Command) (i : Instr), decode c = .ok i → encode i = c

/-- R63: `CMD[31:0]` selects the command, that is `CMD & mask == match` of the opcode table, and the
other three words are its fields. -/
def Obligations.LowWordSelectsTheCommand : Prop :=
  ∀ c : Command,
    (∀ k : Word, c &&& 0x000000000000000000000000FFFFFFFF#128 = k.zeroExtend 128 ↔ c.extractLsb' 0 32 = k) ∧
    (c.extractLsb' 0 32 = 0x00000001#32 ↔
      decode c = .ok (.hash1 (c.extractLsb' 32 32) (c.extractLsb' 64 32) (c.extractLsb' 96 32))) ∧
    (c.extractLsb' 0 32 = 0x00000002#32 ↔
      decode c = .ok (.hash2 (c.extractLsb' 32 32) (c.extractLsb' 64 32) (c.extractLsb' 96 32))) ∧
    (c.extractLsb' 0 32 = 0x00000003#32 ↔
      decode c = .ok (.hash3 (c.extractLsb' 32 32) (c.extractLsb' 64 32) (c.extractLsb' 96 32))) ∧
    (c.extractLsb' 0 32 = 0x00000004#32 ↔
      decode c = .ok (.setbit (c.extractLsb' 32 32) (c.extractLsb' 64 32) (c.extractLsb' 96 32))) ∧
    (c.extractLsb' 0 32 = 0x00000005#32 ↔
      decode c = .ok (.getbit (c.extractLsb' 32 32) (c.extractLsb' 64 32) (c.extractLsb' 96 32))) ∧
    (c.extractLsb' 0 32 = 0x00000006#32 ↔
      decode c = .ok (.insert (c.extractLsb' 32 32) (c.extractLsb' 64 32) (c.extractLsb' 96 32))) ∧
    (c.extractLsb' 0 32 = 0x00000007#32 ↔
      decode c = .ok (.check (c.extractLsb' 32 32) (c.extractLsb' 64 32) (c.extractLsb' 96 32)))

/-- R64: which descriptors are illegal; one is accepted like any other, makes no memory access and is
answered `ILLEGAL_CMD`, `SENTINEL`; the engine is then `IDLE` and the next command is unaffected. -/
def Obligations.IllegalDescriptorsAreAnswered : Prop :=
  (∀ c : Command,
    (c.extractLsb' 0 8 = 0x00#8 ∨ 0x08 ≤ (c.extractLsb' 0 8).toNat ∨ c.extractLsb' 8 24 ≠ 0#24) ↔
      ∀ i, decode c ≠ .ok i) ∧
  (∀ (c : Command) (s : State), (∀ i, decode c ≠ .ok i) →
    (∀ rest, s.engine = .idle → s.inputs = .command c :: rest →
      step s = .next (accept c { s with inputs := rest })) ∧
    (s.engine = .busy c → s.undisturbed →
      step s = .next (completed s.mem [] .illegalCmd 0xFFFFFFFF#32 s)) ∧
    (∀ i, lastResponse (exec i (completed s.mem [] .illegalCmd 0xFFFFFFFF#32 s)) = lastResponse (exec i s))) ∧
  response .illegalCmd 0xFFFFFFFF#32 = 0xFFFFFFFF00000003#64

/-- R71 and the notation of R69: worked encodings, written out bit by bit from the spec, one of each
family. -/
def Obligations.WorkedEncodings : Prop :=
  asmInsert 0x00001000 0x00002000 1024 = 0x00000400000020000000100000000006#128 ∧
  decode 0x00000400000020000000100000000006#128 = .ok (.insert 0x00001000 0x00002000 0x00000400) ∧
  response .ok 0 = 0x0000000000000000#64 ∧
  asmGetbit 0x00001000 1024 1024 = 0x00000400000004000000100000000005#128 ∧
  decode 0x00000400000004000000100000000005#128 = .ok (.getbit 0x00001000 1024 1024) ∧
  (∀ s : State, exec (.getbit 0x00001000 1024 1024) s = .next (completed s.mem [] .indexRange 0xFFFFFFFF#32 s)) ∧
  response .indexRange 0xFFFFFFFF#32 = 0xFFFFFFFF00000002#64 ∧
  asmHash1 0x2000 = 0x00000000000020000000000000000001#128 ∧
  decode 0x00000000000020000000000000000001#128 = .ok (.hash1 0 0x2000 0)

/-- R66, with the codes of R140: the layout of the response. -/
def Obligations.ResponseLayout : Prop :=
  ∀ (e : Err) (r : Word),
    (response e r).extractLsb' 32 32 = r ∧
    (response e r).extractLsb' 2 30 = 0#30 ∧
    (response e r).extractLsb' 0 2 =
      (match e with
        | .ok => 0#2
        | .nullStorage => 1#2
        | .indexRange => 2#2
        | .illegalCmd => 3#2)

/-! ## The Hash Bank (40_hash_bank.md) -/

/-- R82. -/
def Obligations.Mix1IsTheMultiplicativeMixer : Prop :=
  (∀ (a : Word) (c : Byte),
    mix1 a c = (a <<< 5) + a + c.zeroExtend 32 ∧
    mix1 a c = BitVec.ofNat 32 (33 * a.toNat + c.toNat)) ∧
  mix1 5381#32 0x61#8 = 0x0002B606#32 ∧
  mix1 0xFFFFFFFF#32 0xFF#8 = 0x000000DE#32 ∧
  mix1 0x80000000#32 0x00#8 = 0x80000000#32

/-- R83. -/
def Obligations.Mix2IsTheShiftAddSubtractMixer : Prop :=
  (∀ (a : Word) (c : Byte),
    mix2 a c = c.zeroExtend 32 + (a <<< 6) + (a <<< 16) - a ∧
    mix2 a c = BitVec.ofNat 32 (65599 * a.toNat + c.toNat)) ∧
  mix2 0#32 0x61#8 = 0x00000061#32 ∧
  mix2 1#32 0x00#8 = 0x0001003F#32 ∧
  mix2 0x04000000#32 0x05#8 = 0xFC000005#32 ∧
  mix2 0xFFFFFFFF#32 0xFF#8 = 0xFFFF00C0#32

/-- R84: the sum is formed first, mod 2^32, and the right shift is logical. -/
def Obligations.Mix3IsTheShiftXorMixer : Prop :=
  (∀ (a : Word) (c : Byte),
    mix3 a c = a ^^^ BitVec.ofNat 32 ((a.toNat * 32) % 2 ^ 32 + a.toNat / 4 + c.toNat)) ∧
  mix3 0#32 0x61#8 = 0x00000061#32 ∧
  mix3 0x00000061#32 0x70#8 = 0x00000CC9#32 ∧
  mix3 0x80000000#32 0x00#8 = 0xA0000000#32 ∧
  mix3 0xFFFFFFFF#32 0xFF#8 = 0xBFFFFF21#32

/-- R85: start, step, closed form and corner cases of hash1. -/
def Obligations.Hash1FoldsMix1FromTheLeft : Prop :=
  hash1 [] = 5381#32 ∧
  (∀ (bs : List Byte) (c : Byte), hash1 (bs ++ [c]) = mix1 (hash1 bs) c) ∧
  (∀ bs : List Byte, hash1 bs = BitVec.ofNat 32
    (5381 * 33 ^ bs.length + ∑ i : Fin bs.length, (bs.get i).toNat * 33 ^ (bs.length - 1 - i.val))) ∧
  (∀ c : Byte, hash1 [c] = BitVec.ofNat 32 (177573 + c.toNat)) ∧
  hash1 [0x61, 0x70, 0x70, 0x6C, 0x65] = 0x0F199E37#32

/-- R86: start, step, closed form and corner cases of hash2. -/
def Obligations.Hash2FoldsMix2FromTheLeft : Prop :=
  hash2 [] = 0#32 ∧
  (∀ (bs : List Byte) (c : Byte), hash2 (bs ++ [c]) = mix2 (hash2 bs) c) ∧
  (∀ bs : List Byte, hash2 bs = BitVec.ofNat 32
    (∑ i : Fin bs.length, (bs.get i).toNat * 65599 ^ (bs.length - 1 - i.val))) ∧
  (∀ c : Byte, hash2 [c] = c.zeroExtend 32) ∧
  hash2 [0x61, 0x70, 0x70, 0x6C, 0x65] = 0x4F1E365A#32

/-- R87: start, step and corner cases of hash3; it agrees with hash2 on strings of length 0 and 1, and
so do the indices. -/
def Obligations.Hash3FoldsMix3FromTheLeft : Prop :=
  hash3 [] = 0#32 ∧
  (∀ (bs : List Byte) (c : Byte), hash3 (bs ++ [c]) = mix3 (hash3 bs) c) ∧
  (∀ c : Byte, hash3 [c] = c.zeroExtend 32) ∧
  (∀ (bs : List Byte) (n : Word), bs.length ≤ 1 →
    hash2 bs = hash3 bs ∧ reduce (hash2 bs) n = reduce (hash3 bs) n) ∧
  hash3 [0x61, 0x70, 0x70, 0x6C, 0x65] = 0x06B843B3#32

/-- R80: what the string at an address is. -/
def Obligations.StringIsTheBytesBeforeTheNull : Prop :=
  ∀ (m : Memory) (p : Addr) (bs : List Byte),
    m.string p = some bs ↔
      p.toNat + bs.length < 2 ^ 32 ∧
      (∀ (k : Nat) (h : k < bs.length), m.read (p + BitVec.ofNat 32 k) = bs[k] ∧ bs[k] ≠ 0#8) ∧
      m.read (p + BitVec.ofNat 32 bs.length) = 0#8

/-- R81: the string fetch gives the bytes in order, makes L + 1 reads at ascending addresses and
writes nothing; it ends wherever a null lies at or above the address, and has no meaning else. -/
def Obligations.StringFetchReadsToTheNull : Prop :=
  ∀ (s : State) (p : Addr),
    (∀ L : Nat, p.toNat + L < 2 ^ 32 →
      (∀ k < L, s.mem.read (p + BitVec.ofNat 32 k) ≠ 0#8) →
      s.mem.read (p + BitVec.ofNat 32 L) = 0#8 →
      ∃ t, strBytes p s = .ok ((List.range L).map fun k => s.mem.read (p + BitVec.ofNat 32 k), t) ∧
        t.bus = s.bus ++ (List.range (L + 1)).map fun k =>
          .read (p + BitVec.ofNat 32 k) (s.mem.read (p + BitVec.ofNat 32 k))) ∧
    (∀ bs t, strBytes p s = .ok (bs, t) →
      t.mem = s.mem ∧ t.engine = s.engine ∧ t.inputs = s.inputs ∧ t.responses = s.responses) ∧
    ((∃ q : Addr, p.toNat ≤ q.toNat ∧ s.mem.read q = 0#8) → ∃ bs t, strBytes p s = .ok (bs, t)) ∧
    ((∀ q : Addr, p.toNat ≤ q.toNat → s.mem.read q ≠ 0#8) → strBytes p s = .error .stringUnterminated)

/-- R88: HASH1 completes on every terminated string, whatever the ignored fields hold. -/
def Obligations.Hash1AnswersTheHash : Prop :=
  (∀ c : Command, c.extractLsb' 0 32 = 0x00000001#32 →
    decode c = .ok (.hash1 (c.extractLsb' 32 32) (c.extractLsb' 64 32) (c.extractLsb' 96 32))) ∧
  (∀ (s : State) (array strp nbits : Word) (bs : List Byte), s.mem.string strp = some bs →
    exec (.hash1 array strp nbits) s = .next (completed s.mem (stringReads strp bs) .ok (hash1 bs) s)) ∧
  (∀ (s : State) (array strp nbits : Word), s.mem.read strp = 0#8 →
    exec (.hash1 array strp nbits) s = .next (completed s.mem [.read strp 0#8] .ok 0x00001505#32 s)) ∧
  (∀ s : State, s.mem.string 0x2000#32 = some [0x61, 0x70, 0x70, 0x6C, 0x65] →
    lastResponse (exec (.hash1 0 0x2000#32 0) s) = some 0x0F199E3700000000#64)

/-- R89: HASH2 completes on every terminated string, whatever the ignored fields hold. -/
def Obligations.Hash2AnswersTheHash : Prop :=
  (∀ c : Command, c.extractLsb' 0 32 = 0x00000002#32 →
    decode c = .ok (.hash2 (c.extractLsb' 32 32) (c.extractLsb' 64 32) (c.extractLsb' 96 32))) ∧
  (∀ (s : State) (array strp nbits : Word) (bs : List Byte), s.mem.string strp = some bs →
    exec (.hash2 array strp nbits) s = .next (completed s.mem (stringReads strp bs) .ok (hash2 bs) s)) ∧
  (∀ (s : State) (array strp nbits : Word), s.mem.read strp = 0#8 →
    exec (.hash2 array strp nbits) s = .next (completed s.mem [.read strp 0#8] .ok 0x00000000#32 s)) ∧
  (∀ s : State, s.mem.string 0x2000#32 = some [0x61, 0x70, 0x70, 0x6C, 0x65] →
    lastResponse (exec (.hash2 0 0x2000#32 0) s) = some 0x4F1E365A00000000#64)

/-- R90: HASH3 completes on every terminated string, whatever the ignored fields hold. -/
def Obligations.Hash3AnswersTheHash : Prop :=
  (∀ c : Command, c.extractLsb' 0 32 = 0x00000003#32 →
    decode c = .ok (.hash3 (c.extractLsb' 32 32) (c.extractLsb' 64 32) (c.extractLsb' 96 32))) ∧
  (∀ (s : State) (array strp nbits : Word) (bs : List Byte), s.mem.string strp = some bs →
    exec (.hash3 array strp nbits) s = .next (completed s.mem (stringReads strp bs) .ok (hash3 bs) s)) ∧
  (∀ (s : State) (array strp nbits : Word), s.mem.read strp = 0#8 →
    exec (.hash3 array strp nbits) s = .next (completed s.mem [.read strp 0#8] .ok 0x00000000#32 s)) ∧
  (∀ s : State, s.mem.string 0x2000#32 = some [0x61, 0x70, 0x70, 0x6C, 0x65] →
    lastResponse (exec (.hash3 0 0x2000#32 0) s) = some 0x06B843B300000000#64)

/-- R81, U3: a command that reads an unterminated string has no meaning, and the model refuses it. -/
def Obligations.UnterminatedStringIsRefused : Prop :=
  ∀ (s : State) (array strp nbits : Word),
    (∀ q : Addr, strp.toNat ≤ q.toNat → s.mem.read q ≠ 0#8) →
    exec (.hash1 array strp nbits) s = .refused .stringUnterminated ∧
    exec (.hash2 array strp nbits) s = .refused .stringUnterminated ∧
    exec (.hash3 array strp nbits) s = .refused .stringUnterminated ∧
    exec (.insert array strp nbits) s = .refused .stringUnterminated ∧
    exec (.check array strp nbits) s = .refused .stringUnterminated

/-! ## Index reduction and the bit primitives (41_bit_primitives.md) -/

/-- R100: the unsigned remainder, for every capacity but 0. -/
def Obligations.ReduceIsTheUnsignedRemainder : Prop :=
  (∀ h n : Word, n ≠ 0#32 →
    ∃ i : Word, reduce h n = some i ∧ i.toNat = h.toNat % n.toNat ∧ i < n ∧
      (n = 1#32 → i = 0#32) ∧ (h < n → i = h)) ∧
  (∀ h : Word, reduce h 0#32 = none) ∧
  reduce 253337143#32 1024#32 = some 567#32

/-- R101: byte index, bit position, mask and byte address, with the spec's examples. -/
def Obligations.BitAddressing : Prop :=
  (∀ index : Word,
    (byteIndex index).toNat = index.toNat / 8 ∧
    bitPos index = index.toNat % 8 ∧
    (mask index).toNat = 2 ^ (index.toNat % 8)) ∧
  (∀ (array index a : Word), byteAddr array index = some a ↔ array.toNat + index.toNat / 8 = a.toNat) ∧
  (∀ (array index : Word), byteAddr array index = none ↔ 0xFFFFFFFF < array.toNat + index.toNat / 8) ∧
  (byteIndex 0#32 = 0#32 ∧ mask 0#32 = 0x01#8) ∧
  (byteIndex 12#32 = 1#32 ∧ mask 12#32 = 0x10#8) ∧
  (byteIndex 1023#32 = 127#32 ∧ mask 1023#32 = 0x80#8)

/-- 20_memory.md R44: which bit of which cell a logical bit is, as GETBIT reads it and SETBIT sets it. -/
def Obligations.LogicalBitStandsLeastSignificantFirst : Prop :=
  (∀ (s : State) (array index nbits a : Word), array ≠ 0#32 → index < nbits →
    a.toNat = array.toNat + index.toNat / 8 →
    lastResponse (exec (.getbit array index nbits) s) =
      some (response .ok (if (s.mem.read a).getLsbD (index.toNat % 8) then 1#32 else 0#32)) ∧
    (s.mem.wf → ∃ t, exec (.setbit array index nbits) s = .next t ∧
      ∀ k, (t.mem.read a).getLsbD k = ((s.mem.read a).getLsbD k || decide (k = index.toNat % 8)))) ∧
  byteAddr 0x1000#32 0#32 = some 0x1000#32 ∧ mask 0#32 = 0x01#8 ∧
  byteAddr 0x1000#32 7#32 = some 0x1000#32 ∧ mask 7#32 = 0x80#8 ∧
  byteAddr 0x1000#32 8#32 = some 0x1001#32 ∧ mask 8#32 = 0x01#8 ∧
  byteAddr 0x1000#32 567#32 = some 0x1046#32 ∧ mask 567#32 = 0x80#8

/-- R104: SETBIT completes, with success or with either error. -/
def Obligations.SetbitSetsTheBitOrReports : Prop :=
  (∀ c : Command, c.extractLsb' 0 32 = 0x00000004#32 →
    decode c = .ok (.setbit (c.extractLsb' 32 32) (c.extractLsb' 64 32) (c.extractLsb' 96 32))) ∧
  (∀ (s : State) (array index nbits : Word),
    (array = 0#32 →
      exec (.setbit array index nbits) s = .next (completed s.mem [] .nullStorage 0#32 s)) ∧
    (array ≠ 0#32 → nbits ≤ index →
      exec (.setbit array index nbits) s = .next (completed s.mem [] .indexRange 0#32 s)) ∧
    (array ≠ 0#32 → index < nbits → ∀ a, byteAddr array index = some a →
      exec (.setbit array index nbits) s =
        .next (completed (s.mem.write a (s.mem.read a ||| mask index))
          [.read a (s.mem.read a), .write a (s.mem.read a ||| mask index)] .ok 0#32 s))) ∧
  (∀ s : State, s.mem.wf → s.mem.read 0x101#32 = 0x00#8 →
    ∃ t, exec (.setbit 0x100#32 12#32 13#32) s = .next t ∧ t.mem.read 0x101#32 = 0x10#8 ∧
      t.responses = s.responses ++ [0x0000000000000000#64])

/-- R105: GETBIT completes, with the bit or with either error. -/
def Obligations.GetbitAnswersTheBitOrReports : Prop :=
  (∀ c : Command, c.extractLsb' 0 32 = 0x00000005#32 →
    decode c = .ok (.getbit (c.extractLsb' 32 32) (c.extractLsb' 64 32) (c.extractLsb' 96 32))) ∧
  (∀ (s : State) (array index nbits : Word),
    (array = 0#32 →
      exec (.getbit array index nbits) s = .next (completed s.mem [] .nullStorage 0xFFFFFFFF#32 s)) ∧
    (array ≠ 0#32 → nbits ≤ index →
      exec (.getbit array index nbits) s = .next (completed s.mem [] .indexRange 0xFFFFFFFF#32 s)) ∧
    (array ≠ 0#32 → index < nbits → ∀ a, byteAddr array index = some a →
      exec (.getbit array index nbits) s =
        .next (completed s.mem [.read a (s.mem.read a)] .ok (s.mem.bitIn a index) s))) ∧
  (∀ s : State, s.mem.read 0x101#32 = 0x10#8 →
    lastResponse (exec (.getbit 0x100#32 12#32 13#32) s) = some 0x0000000100000000#64 ∧
    lastResponse (exec (.getbit 0x100#32 11#32 13#32) s) = some 0x0000000000000000#64 ∧
    lastResponse (exec (.getbit 0x100#32 13#32 13#32) s) = some 0xFFFFFFFF00000002#64)

/-- R106: after a successful SETBIT the bit reads 1, every other bit of the cell and every other cell
is as it was. -/
def Obligations.SetThenGetAndTheFrame : Prop :=
  ∀ (s : State) (array index nbits a : Word), s.mem.wf → array ≠ 0#32 → index < nbits →
    byteAddr array index = some a →
    ∃ t, exec (.setbit array index nbits) s = .next t ∧
      lastResponse (exec (.getbit array index nbits) t) = some (response .ok 1#32) ∧
      (∀ k, k ≠ index.toNat % 8 → (t.mem.read a).getLsbD k = (s.mem.read a).getLsbD k) ∧
      (∀ b, b ≠ a → t.mem.read b = s.mem.read b) ∧
      (∀ b k, (s.mem.read b).getLsbD k = true → (t.mem.read b).getLsbD k = true)

/-- R107: SETBIT twice leaves what SETBIT once leaves, and answers the same. -/
def Obligations.SetbitIsIdempotent : Prop :=
  ∀ (s t : State) (array index nbits : Word), s.mem.wf →
    exec (.setbit array index nbits) s = .next t →
    ∃ u, exec (.setbit array index nbits) t = .next u ∧ u.mem = t.mem ∧
      u.responses.getLast? = t.responses.getLast?

/-- R108: the boundary, unsigned and at full width; at or beyond it both primitives report and SETBIT
changes nothing. -/
def Obligations.CapacityIsTheBoundary : Prop :=
  ∀ (s : State) (array nbits : Word), array ≠ 0#32 →
    (nbits ≠ 0#32 → arrayFits array nbits →
      lastResponse (exec (.setbit array (nbits - 1#32) nbits) s) = some (response .ok 0#32) ∧
      ∃ v : Word, (v = 0#32 ∨ v = 1#32) ∧
        lastResponse (exec (.getbit array (nbits - 1#32) nbits) s) = some (response .ok v)) ∧
    (∀ index : Word, nbits.toNat ≤ index.toNat →
      (∃ t, exec (.setbit array index nbits) s = .next t ∧ t.mem = s.mem ∧
        t.responses = s.responses ++ [response .indexRange 0#32]) ∧
      (∃ t, exec (.getbit array index nbits) s = .next t ∧ t.mem = s.mem ∧
        t.responses = s.responses ++ [response .indexRange 0xFFFFFFFF#32]))

/-- R111: after a SETBIT or GETBIT that reported an error memory is as before, the engine is `IDLE`,
and the same command again gives the same response. -/
def Obligations.ErrorsLeaveNoTrace : Prop :=
  ∀ (s t : State) (array index nbits : Word) (i : Instr),
    i = .setbit array index nbits ∨ i = .getbit array index nbits →
    exec i s = .next t →
    (∀ r, t.responses.getLast? = some r → errOf r ≠ .ok →
      t.mem = s.mem ∧ t.engine = .idle ∧ t.bus = s.bus ∧
      ∃ u, exec i t = .next u ∧ u.mem = s.mem ∧ u.responses = t.responses ++ [r])

/-! ## The string operations (42_string_ops.md) -/

/-- R121: INSERT completes, on a null array too, where it reads the string all the same; the final
memory does not depend on the order of the three calls. -/
def Obligations.InsertSetsTheThreeBits : Prop :=
  (∀ c : Command, c.extractLsb' 0 32 = 0x00000006#32 →
    decode c = .ok (.insert (c.extractLsb' 32 32) (c.extractLsb' 64 32) (c.extractLsb' 96 32))) ∧
  (∀ (s : State) (array strp nbits : Word) (bs : List Byte),
    s.mem.string strp = some bs → nbits ≠ 0#32 →
    (array = 0#32 →
      exec (.insert array strp nbits) s =
        .next (completed s.mem (stringReads strp bs) .nullStorage 0#32 s)) ∧
    (array ≠ 0#32 → ∀ a1 a2 a3 : Addr,
      byteAddr array (hash1 bs % nbits) = some a1 →
      byteAddr array (hash2 bs % nbits) = some a2 →
      byteAddr array (hash3 bs % nbits) = some a3 →
      exec (.insert array strp nbits) s =
        .next (completed
          (((s.mem.setBitIn a1 (hash1 bs % nbits)).setBitIn a2 (hash2 bs % nbits)).setBitIn a3 (hash3 bs % nbits))
          (stringReads strp bs ++ setAccesses s.mem a1 (hash1 bs % nbits) ++
            setAccesses (s.mem.setBitIn a1 (hash1 bs % nbits)) a2 (hash2 bs % nbits) ++
            setAccesses ((s.mem.setBitIn a1 (hash1 bs % nbits)).setBitIn a2 (hash2 bs % nbits)) a3
              (hash3 bs % nbits))
          .ok 0#32 s))) ∧
  (∀ (m : Memory) (a b i j : Word), m.wf →
    (m.setBitIn a i).setBitIn b j = (m.setBitIn b j).setBitIn a i) ∧
  (∀ s : State, s.mem.wf → s.mem.string 0x2000#32 = some [0x61, 0x70, 0x70, 0x6C, 0x65] →
    zeroed s.mem 0x1000#32 1024#32 →
    ∃ t, exec (.insert 0x1000#32 0x2000#32 1024#32) s = .next t ∧
      t.responses = s.responses ++ [0x0000000000000000#64] ∧
      t.mem.read 0x1046#32 = 0x80#8 ∧ t.mem.read 0x104B#32 = 0x04#8 ∧ t.mem.read 0x1076#32 = 0x08#8 ∧
      (∀ b, b ≠ 0x1046#32 → b ≠ 0x104B#32 → b ≠ 0x1076#32 → t.mem.read b = s.mem.read b))

/-- R122: CHECK completes, on a null array too; it makes all three reads and answers 1 exactly when
all three bits are 1; on a zeroed array it answers 0 for every string. -/
def Obligations.CheckReadsTheThreeBits : Prop :=
  (∀ c : Command, c.extractLsb' 0 32 = 0x00000007#32 →
    decode c = .ok (.check (c.extractLsb' 32 32) (c.extractLsb' 64 32) (c.extractLsb' 96 32))) ∧
  (∀ (s : State) (array strp nbits : Word) (bs : List Byte),
    s.mem.string strp = some bs → nbits ≠ 0#32 →
    (array = 0#32 →
      exec (.check array strp nbits) s =
        .next (completed s.mem (stringReads strp bs) .nullStorage 0xFFFFFFFF#32 s)) ∧
    (array ≠ 0#32 → ∀ a1 a2 a3 : Addr,
      byteAddr array (hash1 bs % nbits) = some a1 →
      byteAddr array (hash2 bs % nbits) = some a2 →
      byteAddr array (hash3 bs % nbits) = some a3 →
      exec (.check array strp nbits) s =
        .next (completed s.mem
          (stringReads strp bs ++
            [.read a1 (s.mem.read a1), .read a2 (s.mem.read a2), .read a3 (s.mem.read a3)])
          .ok
          (if s.mem.bitIn a1 (hash1 bs % nbits) = 1#32 ∧ s.mem.bitIn a2 (hash2 bs % nbits) = 1#32 ∧
              s.mem.bitIn a3 (hash3 bs % nbits) = 1#32 then 1#32 else 0#32) s))) ∧
  (∀ (s : State) (array strp nbits : Word), array ≠ 0#32 → nbits ≠ 0#32 → arrayFits array nbits →
    s.mem.terminated strp → zeroed s.mem array nbits →
    lastResponse (exec (.check array strp nbits) s) = some (response .ok 0#32)) ∧
  (∀ s : State, s.mem.string 0x2000#32 = some [0x61, 0x70, 0x70, 0x6C, 0x65] →
    s.mem.read 0x1046#32 = 0x80#8 → s.mem.read 0x104B#32 = 0x04#8 → s.mem.read 0x1076#32 = 0x08#8 →
    lastResponse (exec (.check 0x1000#32 0x2000#32 1024#32) s) = some 0x0000000100000000#64 ∧
    lastResponse (exec (.check 0#32 0x2000#32 1024#32) s) = some 0xFFFFFFFF00000001#64) ∧
  (∀ s : State, s.mem.string 0x2010#32 = some [0x62, 0x61, 0x6E, 0x61, 0x6E, 0x61] →
    s.mem.read 0x1004#32 = 0x00#8 →
    lastResponse (exec (.check 0x1000#32 0x2010#32 1024#32) s) = some 0x0000000000000000#64)

/-- 20_memory.md R51, U2 (log 9: the model's choice, refused for the index actually used): no address
is wrapped; a command that would address a cell past the top has no meaning, and the model refuses it. -/
def Obligations.CellPastTheTopIsRefused : Prop :=
  (∀ (s : State) (array index nbits : Word), array ≠ 0#32 → index < nbits →
    2 ^ 32 ≤ array.toNat + index.toNat / 8 →
    exec (.setbit array index nbits) s = .refused .arrayPastTop ∧
    exec (.getbit array index nbits) s = .refused .arrayPastTop) ∧
  (∀ (s : State) (array strp nbits : Word) (bs : List Byte),
    s.mem.string strp = some bs → nbits ≠ 0#32 → array ≠ 0#32 →
    (2 ^ 32 ≤ array.toNat + (hash1 bs).toNat % nbits.toNat / 8 ∨
      2 ^ 32 ≤ array.toNat + (hash2 bs).toNat % nbits.toNat / 8 ∨
      2 ^ 32 ≤ array.toNat + (hash3 bs).toNat % nbits.toNat / 8) →
    exec (.insert array strp nbits) s = .refused .arrayPastTop ∧
    exec (.check array strp nbits) s = .refused .arrayPastTop)

/-- R123: no false negatives. For every memory and every array contents, after an INSERT and any
number of commands, host writes outside the array and RESETs, a CHECK with the same capacity on a
string of the same bytes, wherever it lies and whenever it was placed, answers `OK` and 1. -/
def Obligations.NoFalseNegatives : Prop :=
  ∀ (s : State) (array p nbits : Word) (bs : List Byte),
    s.mem.wf → array ≠ 0#32 → nbits ≠ 0#32 → arrayFits array nbits → s.mem.string p = some bs →
    ∃ t, exec (.insert array p nbits) s = .next t ∧
      ∀ (between : List Event) (u : State) (q : Addr), sparesArray array nbits between →
        runEvents between t = .next u → u.mem.string q = some bs →
        lastResponse (exec (.check array q nbits) u) = some (response .ok 1#32)

/-- R124: CHECK answers 1 exactly when the three addressed bits are 1, whoever set them; with
capacity 1, after one INSERT of any string, CHECK of every string answers 1. -/
def Obligations.FalsePositivesArePartOfTheBehaviour : Prop :=
  (∀ (s : State) (array strp nbits : Word) (bs : List Byte) (a1 a2 a3 : Addr),
    array ≠ 0#32 → nbits ≠ 0#32 → s.mem.string strp = some bs →
    byteAddr array (hash1 bs % nbits) = some a1 →
    byteAddr array (hash2 bs % nbits) = some a2 →
    byteAddr array (hash3 bs % nbits) = some a3 →
    (lastResponse (exec (.check array strp nbits) s) = some (response .ok 1#32) ↔
      s.mem.bitSet a1 ((hash1 bs % nbits).toNat % 8) ∧
      s.mem.bitSet a2 ((hash2 bs % nbits).toNat % 8) ∧
      s.mem.bitSet a3 ((hash3 bs % nbits).toNat % 8))) ∧
  (∀ (s t : State) (array p q : Word) (bs : List Byte), s.mem.wf → array ≠ 0#32 →
    exec (.insert array p 1#32) s = .next t → t.mem.string q = some bs →
    lastResponse (exec (.check array q 1#32) t) = some (response .ok 1#32))

/-- R125: INSERT and CHECK report no error but `NULL_STORAGE`. -/
def Obligations.StringOpsNeverReportIndexRange : Prop :=
  ∀ (s t : State) (array strp nbits : Word),
    (exec (.insert array strp nbits) s = .next t ∨ exec (.check array strp nbits) s = .next t) →
    ∃ e r, t.responses = s.responses ++ [response e r] ∧
      ((array ≠ 0#32 ∧ e = .ok) ∨ (array = 0#32 ∧ e = .nullStorage))

/-- R126: INSERT and CHECK with capacity 0 have no meaning, whatever the array reference holds. -/
def Obligations.CapacityZeroHasNoMeaning : Prop :=
  ∀ (s : State) (array strp : Word),
    (∃ r, exec (.insert array strp 0#32) s = .refused r) ∧
    (∃ r, exec (.check array strp 0#32) s = .refused r) ∧
    (∀ bs, s.mem.string strp = some bs →
      exec (.insert array strp 0#32) s = .refused .capacityZero ∧
      exec (.check array strp 0#32) s = .refused .capacityZero)

/-- R127: INSERT only adds, at most the three hashed bits, all below the capacity and inside the
array; a second identical INSERT changes nothing more. -/
def Obligations.InsertOnlyAdds : Prop :=
  ∀ (s t : State) (array strp nbits : Word) (bs : List Byte), s.mem.wf → array ≠ 0#32 →
    s.mem.string strp = some bs → exec (.insert array strp nbits) s = .next t →
    (∀ b k, s.mem.bitSet b k → t.mem.bitSet b k) ∧
    (∀ b k, t.mem.bitSet b k → ¬ s.mem.bitSet b k →
      ∃ i ∈ [hash1 bs % nbits, hash2 bs % nbits, hash3 bs % nbits],
        i < nbits ∧ byteAddr array i = some b ∧ k = i.toNat % 8) ∧
    (∀ b : Addr, ¬ (array.toNat ≤ b.toNat ∧ b.toNat < array.toNat + (nbits.toNat + 7) / 8) →
      t.mem.read b = s.mem.read b) ∧
    (t.mem.string strp = some bs →
      ∃ u, exec (.insert array strp nbits) t = .next u ∧ u.mem = t.mem)

/-- R128: CHECK changes nothing, whatever its status, and a second CHECK answers the same. -/
def Obligations.CheckChangesNothing : Prop :=
  ∀ (s t : State) (array strp nbits : Word), exec (.check array strp nbits) s = .next t →
    t.mem = s.mem ∧
    ∃ u, exec (.check array strp nbits) t = .next u ∧ u.mem = s.mem ∧
      u.responses.getLast? = t.responses.getLast?

/-! ## Every command -/

/-- R43: no command clears a bit, and only SETBIT and INSERT write. -/
def Obligations.NoCommandClearsABit : Prop :=
  ∀ (i : Instr) (s t : State), s.mem.wf → exec i s = .next t →
    (∀ b k, s.mem.bitSet b k → t.mem.bitSet b k) ∧
    ∃ made, t.bus = s.bus ++ made ∧
      ∀ a v, Access.write a v ∈ made →
        ((∃ array x nbits, i = .setbit array x nbits) ∨ (∃ array p nbits, i = .insert array p nbits)) ∧
        (∀ k, s.mem.bitSet a k → v.getLsbD k = true)

/-- 20_memory.md R51 (padding), R106, R127: every bit of memory that differs after a command is a bit
of the command's own array whose index is below its own capacity. -/
def Obligations.OnlyArrayBitsBelowTheCapacityChange : Prop :=
  ∀ (i : Instr) (s t : State) (b : Addr) (k : Nat), s.mem.wf → exec i s = .next t →
    (t.mem.read b).getLsbD k ≠ (s.mem.read b).getLsbD k →
    i.array ≠ 0#32 ∧ ∃ j : Word, j < i.nbits ∧ j.toNat % 8 = k ∧ b.toNat = i.array.toNat + j.toNat / 8

/-- The frame of the commands that store nothing, HASH1, HASH2, HASH3, GETBIT and CHECK: every byte of
memory reads as before, no host input is taken, the earlier responses and accesses stand. -/
def Obligations.FrameOfTheReadingCommands : Prop :=
  ∀ (i : Instr) (s t : State) (array x nbits : Word),
    (i = .hash1 array x nbits ∨ i = .hash2 array x nbits ∨ i = .hash3 array x nbits ∨
      i = .getbit array x nbits ∨ i = .check array x nbits) →
    exec i s = .next t →
    (∀ a, t.mem.read a = s.mem.read a) ∧ t.inputs = s.inputs ∧ t.engine = .idle ∧
    (∃ r, t.responses = s.responses ++ [r]) ∧
    ∃ made, t.bus = s.bus ++ made ∧ ∀ a v, Access.write a v ∉ made

/-- The frame of SETBIT: every byte but the addressed one reads as before, and every byte when it
reports an error. -/
def Obligations.FrameOfSetbit : Prop :=
  ∀ (s t : State) (array index nbits : Word), exec (.setbit array index nbits) s = .next t →
    (∀ a, byteAddr array index = some a → ∀ b, b ≠ a → t.mem.read b = s.mem.read b) ∧
    (array = 0#32 ∨ nbits ≤ index → ∀ b, t.mem.read b = s.mem.read b) ∧
    t.inputs = s.inputs ∧ t.engine = .idle ∧ (∃ r, t.responses = s.responses ++ [r]) ∧ s.bus <+: t.bus

/-- The frame of INSERT: every byte but the three addressed ones reads as before, and every byte when
the array is null. -/
def Obligations.FrameOfInsert : Prop :=
  ∀ (s t : State) (array strp nbits : Word) (bs : List Byte), s.mem.string strp = some bs →
    exec (.insert array strp nbits) s = .next t →
    (∀ a1 a2 a3, byteAddr array (hash1 bs % nbits) = some a1 →
      byteAddr array (hash2 bs % nbits) = some a2 →
      byteAddr array (hash3 bs % nbits) = some a3 →
      ∀ b, b ≠ a1 → b ≠ a2 → b ≠ a3 → t.mem.read b = s.mem.read b) ∧
    (array = 0#32 → ∀ b, t.mem.read b = s.mem.read b) ∧
    t.inputs = s.inputs ∧ t.engine = .idle ∧ (∃ r, t.responses = s.responses ++ [r]) ∧ s.bus <+: t.bus

/-- R67: `RESULT` for every command and every status. -/
def Obligations.ResultForEveryStatus : Prop :=
  (∀ (i : Instr) (s t : State), exec i s = .next t →
    ∃ e r, t.responses = s.responses ++ [response e r] ∧
      match i with
      | .hash1 _ p _ => e = .ok ∧ ∃ bs, s.mem.string p = some bs ∧ r = hash1 bs
      | .hash2 _ p _ => e = .ok ∧ ∃ bs, s.mem.string p = some bs ∧ r = hash2 bs
      | .hash3 _ p _ => e = .ok ∧ ∃ bs, s.mem.string p = some bs ∧ r = hash3 bs
      | .setbit _ _ _ => (e = .ok ∨ e = .nullStorage ∨ e = .indexRange) ∧ r = 0#32
      | .getbit _ _ _ =>
        (e = .ok ∧ (r = 0#32 ∨ r = 1#32)) ∨ ((e = .nullStorage ∨ e = .indexRange) ∧ r = 0xFFFFFFFF#32)
      | .insert _ _ _ => (e = .ok ∨ e = .nullStorage) ∧ r = 0#32
      | .check _ _ _ => (e = .ok ∧ (r = 0#32 ∨ r = 1#32)) ∨ (e = .nullStorage ∧ r = 0xFFFFFFFF#32)) ∧
  (∀ (c : Command) (s : State), (∀ i, decode c ≠ .ok i) →
    ∃ t, runCommand c s = .next t ∧ t.responses = s.responses ++ [response .illegalCmd 0xFFFFFFFF#32])

/-- R21, R14: what a command answers, the memory it leaves and the accesses it makes depend on the
command and the memory alone: not on earlier commands, earlier errors, the working registers or the
host's inputs, so also as the first command after RESET (R31). No command faults. -/
def Obligations.CommandsKeepNoState : Prop :=
  ∀ (i : Instr) (s : State),
    (∃ m made e r, ∀ s' : State, s'.mem = s.mem → exec i s' = .next (completed m made e r s')) ∨
    (∃ f, ∀ s' : State, s'.mem = s.mem → exec i s' = .refused f)

/-- R171: with the host's duties met every command ends with its response, after at most L + 1 string
reads and six accesses of the array. It holds for all seven commands, under conditions on memory and
operands alone. -/
def Obligations.EveryCommandEndsUnderTheDuties : Prop :=
  ∀ (i : Instr) (s : State), dutiesMet s.mem i →
    ∃ t made, exec i s = .next t ∧ t.engine = .idle ∧ (∃ r, t.responses = s.responses ++ [r]) ∧
      t.bus = s.bus ++ made ∧
      made.length ≤ (if i.readsString then ((s.mem.string i.arg).getD []).length + 1 else 0) + 6

/-- 20_memory.md R52, R48: every read of a command gives the last write to its cell, and the memory it
leaves is what its accesses, one after another, make of the memory it found. -/
def Obligations.AccessesAreInProgramOrder : Prop :=
  ∀ (i : Instr) (s t : State), exec i s = .next t →
    ∃ made, t.bus = s.bus ++ made ∧ coherent s.mem made ∧ t.mem = made.foldl Access.apply s.mem

/-- 20_memory.md R43: a write replaces one cell and changes no other. -/
def Obligations.MemWriteReplacesOneCell : Prop :=
  ∀ (a : Addr) (v : Byte) (s : State), s.mem.wf →
    (memWrite a v s).mem.read a = v ∧
    (∀ b, b ≠ a → (memWrite a v s).mem.read b = s.mem.read b) ∧
    (memWrite a v s).mem.wf

/-- 60_exceptions.md R145: `raise` records the first error of a command and does nothing else. -/
def Obligations.RaiseRecordsTheFirstError : Prop :=
  ∀ (e : Err) (s : State),
    (s.work.err = .ok → raiseErr e s = { s with work := { s.work with err := e } }) ∧
    (s.work.err ≠ .ok → raiseErr e s = s) ∧
    Err.nullStorage.code = 1#2 ∧ Err.indexRange.code = 2#2

/-- 60_exceptions.md R146: which error wins. -/
def Obligations.ErrorPriority : Prop :=
  (∀ (s : State) (index nbits : Word), nbits ≤ index →
    lastResponse (exec (.setbit 0#32 index nbits) s) = some (response .nullStorage 0#32) ∧
    lastResponse (exec (.getbit 0#32 index nbits) s) = some (response .nullStorage 0xFFFFFFFF#32)) ∧
  (∀ (s : State) (c : Command), (∀ i, decode c ≠ .ok i) →
    runCommand c s = .next (completed s.mem [] .illegalCmd 0xFFFFFFFF#32 s))

/-! ## The engine and the host (10_state.md, 70_reset_and_hazards.md) -/

/-- 00_scope.md R13: a step of the engine with a legal command in flight, and no host input that comes
before it, is the meaning of that command at that state. -/
def Obligations.StepRunsTheDecodedCommand : Prop :=
  ∀ (s : State) (c : Command) (i : Instr), s.engine = .busy c → decode c = .ok i → s.undisturbed →
    step s = exec i s

/-- 10_state.md R28, R23, R25: a command is accepted at the `IDLE` engine, with the initial values of
the working registers; it is never accepted while one is in flight; each response takes the engine
from `BUSY` to `IDLE`. -/
def Obligations.OneCommandInFlight : Prop :=
  (∀ (s : State) (c : Command) (rest : List HostInput), s.engine = .idle → s.inputs = .command c :: rest →
    ∃ t, step s = .next t ∧ t.engine = .busy c ∧ t.inputs = rest ∧ t.mem = s.mem ∧
      t.responses = s.responses ∧ t.bus = s.bus ∧
      t.work.acc1 = 5381#32 ∧ t.work.acc2 = 0#32 ∧ t.work.acc3 = 0#32 ∧
      t.work.sptr = c.extractLsb' 64 32 ∧ t.work.err = .ok) ∧
  (∀ (s t : State) (c : Command), s.engine = .busy c → step s = .next t →
    (t.engine = .busy c ∧ t.responses = s.responses) ∨
    (t.engine = .idle ∧ (t.responses = s.responses ∨ ∃ r, t.responses = s.responses ++ [r]))) ∧
  (∀ (s t : State) (r : Response), step s = .next t → t.responses = s.responses ++ [r] →
    ∃ c, s.engine = .busy c ∧ t.engine = .idle ∧ t.inputs = s.inputs)

/-- 70_reset_and_hazards.md R160: RESET at the `IDLE` engine leaves it `IDLE`, with no response, and
changes no memory cell, whether it is one that waits for `IDLE` or one that does not wait (log 6). -/
def Obligations.ResetLeavesMemory : Prop :=
  ∀ (s : State) (rest : List HostInput), s.engine = .idle →
    (s.inputs = .reset :: rest ∨ ∃ done, s.inputs = .resetNow done :: rest) →
    ∃ t, step s = .next t ∧ t.engine = .idle ∧ t.inputs = rest ∧ t.mem = s.mem ∧
      t.responses = s.responses ∧ t.bus = s.bus

/-- 70_reset_and_hazards.md R161: RESET while a command is in flight abandons it: no response, of its
accesses a prefix, and no bit that was 1 is lost. -/
def Obligations.ResetAbandonsTheCommandInFlight : Prop :=
  ∀ (s : State) (c : Command) (done : Nat) (rest : List HostInput), s.mem.wf → s.engine = .busy c →
    s.inputs = .resetNow done :: rest →
    (∀ whole, runCommand c { s with inputs := rest } = .next whole →
      ∃ t made, whole.bus = s.bus ++ made ∧ step s = .next t ∧ t.engine = .idle ∧ t.inputs = rest ∧
        t.responses = s.responses ∧ t.bus = s.bus ++ made.take done ∧
        t.mem = (made.take done).foldl Access.apply s.mem ∧
        (∀ b k, s.mem.bitSet b k → t.mem.bitSet b k)) ∧
    (∀ f, runCommand c { s with inputs := rest } = .refused f → step s = .refused f)

/-- 10_state.md R30: what the spec gives for reset. -/
def Obligations.StateAfterReset : Prop :=
  State.reset.engine = .idle ∧ State.reset.inputs = [] ∧ State.reset.responses = [] ∧
  State.reset.bus = []

/-- 70_reset_and_hazards.md R173 (log 6, log 14: the model's reading): at the `IDLE` engine with no
input nothing happens; a host write between commands, one that waits for `IDLE` or one that does not
wait, lands and touches nothing else. -/
def Obligations.IdleEngineWaitsAndTheHostMayWrite : Prop :=
  (∀ s : State, s.ended → step s = .next s) ∧
  (∀ (s : State) (a : Addr) (v : Byte) (rest : List HostInput), s.mem.wf → s.engine = .idle →
    (s.inputs = .write a v :: rest ∨ s.inputs = .writeNow a v :: rest) →
    ∃ t, step s = .next t ∧ t.mem.read a = v ∧ (∀ b, b ≠ a → t.mem.read b = s.mem.read b) ∧
      t.engine = .idle ∧ t.inputs = rest ∧ t.responses = s.responses ∧ t.bus = s.bus)

/-- 70_reset_and_hazards.md R165, U4 (log 8: the model's reading): while a command is in flight, a host
write to a cell of its string or bit array stops the model, and one elsewhere leaves the command's
answer as it was. -/
def Obligations.HostWriteWhileBusy : Prop :=
  ∀ (s : State) (c : Command) (a : Addr) (v : Byte) (rest : List HostInput), s.mem.wf →
    s.engine = .busy c → s.inputs = .writeNow a v :: rest →
    (inUse c s.mem a = true → step s = .fault .foreignWrite) ∧
    (inUse c s.mem a = false →
      ∃ t, step s = .next t ∧ t.engine = .busy c ∧ t.inputs = rest ∧ t.mem = s.mem.write a v ∧
        t.responses = s.responses ∧
        lastResponse (runCommand c t) = lastResponse (runCommand c s))

/-- 70_reset_and_hazards.md R173: a run. What the host does at the `IDLE` engine, commands (illegal ones
too), host writes and RESETs between them, takes effect in its order, each on the memory the one before
left; two steps a command, its acceptance and its execution (the model's own division, log 1). The run
then has ended. -/
def Obligations.RunsExecuteTheCommandsInOrder : Prop :=
  ∀ (es : List Event) (s t : State), s.engine = .idle → s.inputs = es.map Event.input →
    runEvents es s = .next t →
    ∃ u, steps (es.map Event.stepCount).sum s = .next u ∧ u.mem = t.mem ∧ u.responses = t.responses ∧
      u.bus = t.bus ∧ u.ended

/-- The invariant holds at reset. -/
def Obligations.InvariantAtReset : Prop := Inv State.reset

/-- Every step keeps the invariant, from every state that meets it: memory keeps its canonical form,
and every response ever delivered has the form of 30_encoding.md R66 and R67. -/
def Obligations.EveryStepKeepsTheInvariant : Prop :=
  ∀ s t : State, Inv s → step s = .next t → Inv t
end

