-- ==== Sys2Proof/Laws/Memory.lean ====
section
/-! SUPPORT. The laws of memory: read after write, the canonical form, and that equal contents are
equal memories (20_memory.md R42, R43, R48). -/

namespace Sys2Proof.Machine

/-- Reading below every listed address gives what an unlisted address reads as. -/
theorem Memory.read_of_lt (m : Memory) (a : Addr) (h : ∀ c ∈ m, a.toNat < c.1) :
    m.read a = Config.unlistedByte := by
  induction m with
  | nil => rfl
  | cons c m ih =>
    have hc := h c (by simp)
    simp only [Memory.read, Nat.ne_of_gt hc, if_false]
    exact ih fun d hd => h d (by simp [hd])

/-- A write leaves every other cell alone. -/
theorem Memory.read_write_other (m : Memory) {a b : Addr} (v : Byte) (h : b ≠ a) :
    (m.write a v).read b = m.read b := by
  have hn : a.toNat ≠ b.toNat := fun e => h (BitVec.eq_of_toNat_eq e.symm)
  induction m with
  | nil => simp only [Memory.write]; split <;> simp [Memory.read, hn]
  | cons c m ih =>
    simp only [Memory.write]
    split
    · simp only [Memory.read, ih]
    · split
      · next hc => split <;> simp [Memory.read, hc, hn]
      · split <;> simp [Memory.read, hn]

/-- A cell reads as what was last written to it. -/
theorem Memory.read_write_same {m : Memory} (hm : m.wf) (a : Addr) (v : Byte) :
    (m.write a v).read a = v := by
  induction m with
  | nil => simp only [Memory.write]; split <;> simp_all [Memory.read]
  | cons c m ih =>
    obtain ⟨hp, hc⟩ := hm
    obtain ⟨hlt, hp⟩ := List.pairwise_cons.1 hp
    have hm : Memory.wf m := ⟨hp, fun d hd => hc d (by simp [hd])⟩
    simp only [Memory.write]
    split
    · next h => simp only [Memory.read, Nat.ne_of_lt h, if_false, ih hm]
    · split
      · next h =>
        split
        · next hv => rw [hv]; exact Memory.read_of_lt m a fun d hd => h ▸ hlt d hd
        · simp [Memory.read, h]
      · next h1 h2 =>
        split
        · next hv =>
          rw [hv]
          refine Memory.read_of_lt _ a fun d hd => ?_
          rcases List.mem_cons.1 hd with rfl | hd
          · omega
          · have := hlt d hd; omega
        · simp [Memory.read]

/-- Where a written memory lists a cell, the memory listed it before or it is the written cell. -/
theorem Memory.mem_write (m : Memory) (a : Addr) (v : Byte) (c : Host.Cell) (h : c ∈ m.write a v) :
    c ∈ m ∨ (c.1 = a.toNat ∧ c.2 = v ∧ v ≠ Config.unlistedByte) := by
  induction m with
  | nil => simp only [Memory.write] at h; split at h <;> simp_all
  | cons d m ih =>
    simp only [Memory.write] at h
    split at h
    · rcases List.mem_cons.1 h with rfl | h
      · exact .inl (by simp)
      · exact (ih h).imp (List.mem_cons_of_mem _) id
    · split at h
      · split at h
        · exact .inl (List.mem_cons_of_mem _ h)
        · rcases List.mem_cons.1 h with rfl | h
          · next hd hv => exact .inr ⟨hd, rfl, hv⟩
          · exact .inl (List.mem_cons_of_mem _ h)
      · split at h
        · exact .inl h
        · rcases List.mem_cons.1 h with rfl | h
          · next hv => exact .inr ⟨rfl, rfl, hv⟩
          · exact .inl h

/-- A write keeps the canonical form. -/
theorem Memory.write_wf {m : Memory} (hm : m.wf) (a : Addr) (v : Byte) : (m.write a v).wf := by
  refine ⟨?_, fun c hc => ?_⟩
  · induction m with
    | nil => simp only [Memory.write]; split <;> simp
    | cons d m ih =>
      obtain ⟨hp, hc⟩ := hm
      have hp' := List.pairwise_cons.1 hp
      have hm : Memory.wf m := ⟨hp'.2, fun d hd => hc d (by simp [hd])⟩
      simp only [Memory.write]
      split
      · next h =>
        refine List.pairwise_cons.2 ⟨fun e he => ?_, ih hm⟩
        rcases Memory.mem_write m a v e he with he | ⟨he, -⟩
        · exact hp'.1 e he
        · rw [he]; exact h
      · split
        · split
          · exact hp'.2
          · exact List.pairwise_cons.2 ⟨hp'.1, hp'.2⟩
        · split
          · exact hp
          · refine List.pairwise_cons.2 ⟨fun e he => ?_, hp⟩
            rcases List.mem_cons.1 he with rfl | he
            · simp only; omega
            · have := hp'.1 e he; simp only; omega
  · rcases Memory.mem_write m a v c hc with h | ⟨h1, h2, h3⟩
    · exact hm.2 c h
    · rw [h1, h2]; exact ⟨a.isLt, h3⟩

/-- Two memories in canonical form that read alike everywhere are equal. -/
theorem Memory.ext_read {m n : Memory} (hm : m.wf) (hn : n.wf) (h : ∀ a, m.read a = n.read a) : m = n := by
  have key : ∀ (c : Host.Cell) (m : Memory), Memory.wf (c :: m) →
      Memory.read (c :: m) (BitVec.ofNat 32 c.1) = c.2 ∧
        ∀ a : Addr, a.toNat < c.1 → Memory.read (c :: m) a = Config.unlistedByte := by
    intro c m hw
    have hc : c.1 < 4294967296 := (hw.2 c (by simp)).1
    refine ⟨by simp [Memory.read, Nat.mod_eq_of_lt hc], fun a ha => ?_⟩
    refine Memory.read_of_lt _ a fun d hd => ?_
    rcases List.mem_cons.1 hd with rfl | hd
    · exact ha
    · exact ha.trans ((List.pairwise_cons.1 hw.1).1 d hd)
  have tail : ∀ (c : Host.Cell) (m : Memory), Memory.wf (c :: m) → Memory.wf m := fun c m hw =>
    ⟨(List.pairwise_cons.1 hw.1).2, fun d hd => hw.2 d (by simp [hd])⟩
  induction m generalizing n with
  | nil =>
    cases n with
    | nil => rfl
    | cons d n =>
      have h1 := (h (BitVec.ofNat 32 d.1)).trans (key d n hn).1
      exact absurd h1.symm (hn.2 d (by simp)).2
  | cons c m ih =>
    cases n with
    | nil =>
      have h1 := (h (BitVec.ofNat 32 c.1)).symm.trans (key c m hm).1
      exact absurd h1.symm (hm.2 c (by simp)).2
    | cons d n =>
      have hc : c.1 < 4294967296 := (hm.2 c (by simp)).1
      have hd : d.1 < 4294967296 := (hn.2 d (by simp)).1
      have hcd : c.1 = d.1 := by
        rcases Nat.lt_trichotomy c.1 d.1 with hl | he | hl
        · have h1 := h (BitVec.ofNat 32 c.1)
          rw [(key c m hm).1, (key d n hn).2 _ (by simpa [Nat.mod_eq_of_lt hc] using hl)] at h1
          exact absurd h1 (hm.2 c (by simp)).2
        · exact he
        · have h1 := h (BitVec.ofNat 32 d.1)
          rw [(key d n hn).1, (key c m hm).2 _ (by simpa [Nat.mod_eq_of_lt hd] using hl)] at h1
          exact absurd h1.symm (hn.2 d (by simp)).2
      have hv : c.2 = d.2 := by
        have h1 := h (BitVec.ofNat 32 c.1)
        rwa [(key c m hm).1, hcd, (key d n hn).1] at h1
      have he : c = d := Prod.ext hcd hv
      subst he
      congr 1
      refine ih (tail _ _ hm) (tail _ _ hn) fun a => ?_
      have h1 := h a
      simp only [Memory.read] at h1
      split at h1
      · next ha =>
        rw [Memory.read_of_lt m a fun e he' => ha ▸ (List.pairwise_cons.1 hm.1).1 e he',
          Memory.read_of_lt n a fun e he' => ha ▸ (List.pairwise_cons.1 hn.1).1 e he']
      · exact h1

/-- Writing back what a cell holds changes nothing (20_memory.md R48). -/
theorem Memory.write_read {m : Memory} (hm : m.wf) (a : Addr) : m.write a (m.read a) = m := by
  refine Memory.ext_read (Memory.write_wf hm _ _) hm fun b => ?_
  by_cases h : b = a
  · rw [h, Memory.read_write_same hm]
  · rw [Memory.read_write_other m _ h]

/-- The last of two writes to a cell is the one that counts. -/
theorem Memory.write_write {m : Memory} (hm : m.wf) (a : Addr) (v w : Byte) :
    (m.write a v).write a w = m.write a w := by
  have hv := Memory.write_wf hm a v
  refine Memory.ext_read (Memory.write_wf hv _ _) (Memory.write_wf hm _ _) fun b => ?_
  by_cases h : b = a
  · rw [h, Memory.read_write_same hv, Memory.read_write_same hm]
  · rw [Memory.read_write_other _ _ h, Memory.read_write_other _ _ h, Memory.read_write_other _ _ h]

/-- Reset memory has the canonical form. -/
theorem reset_mem_wf : State.reset.mem.wf := by decide

end Sys2Proof.Machine
end

