-- ==== Sys2Proof/Laws/Operands.lean ====
section
/-! SUPPORT. Index reduction and bit addressing (41_bit_primitives.md R100, R101). -/

namespace Sys2Proof.Machine

/-- For n ≥ 1 `reduce` gives the remainder. -/
theorem reduce_of_ne {n : Word} (h : n ≠ 0) (x : Word) : reduce x n = some (x % n) := if_neg h

/-- A remainder lies below its modulus. -/
theorem mod_lt_of_ne {n : Word} (h : n ≠ 0) (x : Word) : x % n < n := by
  have : 0 < n := by bv_omega
  exact BitVec.umod_lt x this

/-- `reduceOrRefuse` gives the remainder, or refuses capacity 0. -/
theorem reduceOrRefuse_eq (h n : Word) :
    reduceOrRefuse h n = if n = 0 then .error .capacityZero else .ok (h % n) := by
  unfold reduceOrRefuse reduce
  split <;> split at * <;> simp_all

/-- `bit_pos` is the index modulo 8. -/
theorem bitPos_eq (i : Word) : bitPos i = i.toNat % 8 := by
  simp only [bitPos, BitVec.toNat_and, BitVec.toNat_ofNat]
  exact Nat.and_two_pow_sub_one_eq_mod i.toNat 3

/-- `byte_index` is the index divided by 8. -/
theorem byteIndex_toNat (i : Word) : (byteIndex i).toNat = i.toNat / 8 := by
  simp [byteIndex, BitVec.toNat_ushiftRight, Nat.shiftRight_eq_div_pow]

/-- `mask` has exactly the bit at `bit_pos`. -/
theorem mask_getLsbD (i : Word) (k : Nat) : (mask i).getLsbD k = decide (k = i.toNat % 8) := by
  have h8 : i.toNat % 8 < 8 := Nat.mod_lt _ (by decide)
  unfold mask
  rw [bitPos_eq]
  generalize i.toNat % 8 = j at h8
  by_cases hk : k < 8
  · interval_cases j <;> interval_cases k <;> decide
  · rw [BitVec.getLsbD_of_ge _ _ (by omega)]
    symm; simpa using by omega

/-- Or-ing the mask in sets the one bit and keeps the others. -/
theorem or_mask_getLsbD (v : Byte) (i : Word) (k : Nat) :
    (v ||| mask i).getLsbD k = (v.getLsbD k || decide (k = i.toNat % 8)) := by
  rw [BitVec.getLsbD_or, mask_getLsbD]

/-- The test of `get_bit` looks at the one bit. -/
theorem and_mask_ne_zero (v : Byte) (i : Word) : v &&& mask i ≠ 0 ↔ v.getLsbD (i.toNat % 8) = true := by
  have h8 : i.toNat % 8 < 8 := Nat.mod_lt _ (by decide)
  constructor
  · intro h
    by_contra hv
    refine h (BitVec.eq_of_getLsbD_eq fun k hk => ?_)
    simp only [BitVec.getLsbD_and, mask_getLsbD]
    by_cases hj : k = i.toNat % 8 <;> simp_all
  · intro h he
    have := congrArg (fun b => BitVec.getLsbD b (i.toNat % 8)) he
    simp [BitVec.getLsbD_and, mask_getLsbD, h] at this

/-- `byte_addr` gives an address exactly when the sum does not pass the top, and then the exact sum. -/
theorem byteAddr_eq_some {array a : Addr} {index : Word} :
    byteAddr array index = some a ↔ array.toNat + index.toNat / 8 = a.toNat := by
  have ha := a.isLt
  unfold byteAddr
  rw [byteIndex_toNat]
  split
  · next h =>
    have hsum : (array + byteIndex index).toNat = array.toNat + index.toNat / 8 := by
      rw [BitVec.toNat_add, byteIndex_toNat]; exact Nat.mod_eq_of_lt h
    rw [Option.some.injEq, ← hsum]
    exact ⟨fun e => e ▸ rfl, fun e => BitVec.eq_of_toNat_eq e⟩
  · next h => simp only [reduceCtorEq, false_iff]; simp only [Config.spaceSize] at h; omega

/-- `byte_addr` gives nothing exactly when the sum passes the top. -/
theorem byteAddr_eq_none {array : Addr} {index : Word} :
    byteAddr array index = none ↔ 2 ^ 32 ≤ array.toNat + index.toNat / 8 := by
  unfold byteAddr
  rw [byteIndex_toNat]
  simp only [Config.spaceSize]
  split
  · next h => simp only [reduceCtorEq, false_iff]; omega
  · next h => simp only [true_iff]; omega

/-- In an array that fits, every index in range has an address. -/
theorem byteAddr_of_fits {array : Addr} {index n : Word} (hf : arrayFits array n) (hi : index < n) :
    ∃ a, byteAddr array index = some a := by
  have hi' : index.toNat < n.toNat := hi
  simp only [arrayFits, Config.spaceSize] at hf
  cases h : byteAddr array index with
  | some a => exact ⟨a, rfl⟩
  | none => rw [byteAddr_eq_none] at h; omega

end Sys2Proof.Machine
end

