-- ==== Sys2Proof/Laws/State.lean ====
section
/-! SUPPORT. One lemma per field per update of the state, true by unfolding the update once, so that
no later proof unfolds a record update. -/

namespace Sys2Proof.Machine

/-! `setAcc1` -/
@[simp] theorem setAcc1_mem (v : Word) (s : State) : (setAcc1 v s).mem = s.mem := rfl
@[simp] theorem setAcc1_engine (v : Word) (s : State) : (setAcc1 v s).engine = s.engine := rfl
@[simp] theorem setAcc1_inputs (v : Word) (s : State) : (setAcc1 v s).inputs = s.inputs := rfl
@[simp] theorem setAcc1_responses (v : Word) (s : State) : (setAcc1 v s).responses = s.responses := rfl
@[simp] theorem setAcc1_bus (v : Word) (s : State) : (setAcc1 v s).bus = s.bus := rfl
@[simp] theorem setAcc1_draws (v : Word) (s : State) : (setAcc1 v s).draws = s.draws := rfl
@[simp] theorem setAcc1_work (v : Word) (s : State) : (setAcc1 v s).work = { s.work with acc1 := v } := rfl

/-! `setAcc2` -/
@[simp] theorem setAcc2_mem (v : Word) (s : State) : (setAcc2 v s).mem = s.mem := rfl
@[simp] theorem setAcc2_engine (v : Word) (s : State) : (setAcc2 v s).engine = s.engine := rfl
@[simp] theorem setAcc2_inputs (v : Word) (s : State) : (setAcc2 v s).inputs = s.inputs := rfl
@[simp] theorem setAcc2_responses (v : Word) (s : State) : (setAcc2 v s).responses = s.responses := rfl
@[simp] theorem setAcc2_bus (v : Word) (s : State) : (setAcc2 v s).bus = s.bus := rfl
@[simp] theorem setAcc2_draws (v : Word) (s : State) : (setAcc2 v s).draws = s.draws := rfl
@[simp] theorem setAcc2_work (v : Word) (s : State) : (setAcc2 v s).work = { s.work with acc2 := v } := rfl

/-! `setAcc3` -/
@[simp] theorem setAcc3_mem (v : Word) (s : State) : (setAcc3 v s).mem = s.mem := rfl
@[simp] theorem setAcc3_engine (v : Word) (s : State) : (setAcc3 v s).engine = s.engine := rfl
@[simp] theorem setAcc3_inputs (v : Word) (s : State) : (setAcc3 v s).inputs = s.inputs := rfl
@[simp] theorem setAcc3_responses (v : Word) (s : State) : (setAcc3 v s).responses = s.responses := rfl
@[simp] theorem setAcc3_bus (v : Word) (s : State) : (setAcc3 v s).bus = s.bus := rfl
@[simp] theorem setAcc3_draws (v : Word) (s : State) : (setAcc3 v s).draws = s.draws := rfl
@[simp] theorem setAcc3_work (v : Word) (s : State) : (setAcc3 v s).work = { s.work with acc3 := v } := rfl

/-! `setSptr` -/
@[simp] theorem setSptr_mem (v : Addr) (s : State) : (setSptr v s).mem = s.mem := rfl
@[simp] theorem setSptr_engine (v : Addr) (s : State) : (setSptr v s).engine = s.engine := rfl
@[simp] theorem setSptr_inputs (v : Addr) (s : State) : (setSptr v s).inputs = s.inputs := rfl
@[simp] theorem setSptr_responses (v : Addr) (s : State) : (setSptr v s).responses = s.responses := rfl
@[simp] theorem setSptr_bus (v : Addr) (s : State) : (setSptr v s).bus = s.bus := rfl
@[simp] theorem setSptr_draws (v : Addr) (s : State) : (setSptr v s).draws = s.draws := rfl
@[simp] theorem setSptr_work (v : Addr) (s : State) : (setSptr v s).work = { s.work with sptr := v } := rfl

/-! `setCh` -/
@[simp] theorem setCh_mem (v : Byte) (s : State) : (setCh v s).mem = s.mem := rfl
@[simp] theorem setCh_engine (v : Byte) (s : State) : (setCh v s).engine = s.engine := rfl
@[simp] theorem setCh_inputs (v : Byte) (s : State) : (setCh v s).inputs = s.inputs := rfl
@[simp] theorem setCh_responses (v : Byte) (s : State) : (setCh v s).responses = s.responses := rfl
@[simp] theorem setCh_bus (v : Byte) (s : State) : (setCh v s).bus = s.bus := rfl
@[simp] theorem setCh_draws (v : Byte) (s : State) : (setCh v s).draws = s.draws := rfl
@[simp] theorem setCh_work (v : Byte) (s : State) : (setCh v s).work = { s.work with ch := v } := rfl

/-! `setIdx1` -/
@[simp] theorem setIdx1_mem (v : Word) (s : State) : (setIdx1 v s).mem = s.mem := rfl
@[simp] theorem setIdx1_engine (v : Word) (s : State) : (setIdx1 v s).engine = s.engine := rfl
@[simp] theorem setIdx1_inputs (v : Word) (s : State) : (setIdx1 v s).inputs = s.inputs := rfl
@[simp] theorem setIdx1_responses (v : Word) (s : State) : (setIdx1 v s).responses = s.responses := rfl
@[simp] theorem setIdx1_bus (v : Word) (s : State) : (setIdx1 v s).bus = s.bus := rfl
@[simp] theorem setIdx1_draws (v : Word) (s : State) : (setIdx1 v s).draws = s.draws := rfl
@[simp] theorem setIdx1_work (v : Word) (s : State) : (setIdx1 v s).work = { s.work with idx1 := v } := rfl

/-! `setIdx2` -/
@[simp] theorem setIdx2_mem (v : Word) (s : State) : (setIdx2 v s).mem = s.mem := rfl
@[simp] theorem setIdx2_engine (v : Word) (s : State) : (setIdx2 v s).engine = s.engine := rfl
@[simp] theorem setIdx2_inputs (v : Word) (s : State) : (setIdx2 v s).inputs = s.inputs := rfl
@[simp] theorem setIdx2_responses (v : Word) (s : State) : (setIdx2 v s).responses = s.responses := rfl
@[simp] theorem setIdx2_bus (v : Word) (s : State) : (setIdx2 v s).bus = s.bus := rfl
@[simp] theorem setIdx2_draws (v : Word) (s : State) : (setIdx2 v s).draws = s.draws := rfl
@[simp] theorem setIdx2_work (v : Word) (s : State) : (setIdx2 v s).work = { s.work with idx2 := v } := rfl

/-! `setIdx3` -/
@[simp] theorem setIdx3_mem (v : Word) (s : State) : (setIdx3 v s).mem = s.mem := rfl
@[simp] theorem setIdx3_engine (v : Word) (s : State) : (setIdx3 v s).engine = s.engine := rfl
@[simp] theorem setIdx3_inputs (v : Word) (s : State) : (setIdx3 v s).inputs = s.inputs := rfl
@[simp] theorem setIdx3_responses (v : Word) (s : State) : (setIdx3 v s).responses = s.responses := rfl
@[simp] theorem setIdx3_bus (v : Word) (s : State) : (setIdx3 v s).bus = s.bus := rfl
@[simp] theorem setIdx3_draws (v : Word) (s : State) : (setIdx3 v s).draws = s.draws := rfl
@[simp] theorem setIdx3_work (v : Word) (s : State) : (setIdx3 v s).work = { s.work with idx3 := v } := rfl

/-! `setBaddr` -/
@[simp] theorem setBaddr_mem (v : Addr) (s : State) : (setBaddr v s).mem = s.mem := rfl
@[simp] theorem setBaddr_engine (v : Addr) (s : State) : (setBaddr v s).engine = s.engine := rfl
@[simp] theorem setBaddr_inputs (v : Addr) (s : State) : (setBaddr v s).inputs = s.inputs := rfl
@[simp] theorem setBaddr_responses (v : Addr) (s : State) : (setBaddr v s).responses = s.responses := rfl
@[simp] theorem setBaddr_bus (v : Addr) (s : State) : (setBaddr v s).bus = s.bus := rfl
@[simp] theorem setBaddr_draws (v : Addr) (s : State) : (setBaddr v s).draws = s.draws := rfl
@[simp] theorem setBaddr_work (v : Addr) (s : State) : (setBaddr v s).work = { s.work with baddr := v } := rfl

/-! `setBmask` -/
@[simp] theorem setBmask_mem (v : Byte) (s : State) : (setBmask v s).mem = s.mem := rfl
@[simp] theorem setBmask_engine (v : Byte) (s : State) : (setBmask v s).engine = s.engine := rfl
@[simp] theorem setBmask_inputs (v : Byte) (s : State) : (setBmask v s).inputs = s.inputs := rfl
@[simp] theorem setBmask_responses (v : Byte) (s : State) : (setBmask v s).responses = s.responses := rfl
@[simp] theorem setBmask_bus (v : Byte) (s : State) : (setBmask v s).bus = s.bus := rfl
@[simp] theorem setBmask_draws (v : Byte) (s : State) : (setBmask v s).draws = s.draws := rfl
@[simp] theorem setBmask_work (v : Byte) (s : State) : (setBmask v s).work = { s.work with bmask := v } := rfl

/-! `setBval` -/
@[simp] theorem setBval_mem (v : Byte) (s : State) : (setBval v s).mem = s.mem := rfl
@[simp] theorem setBval_engine (v : Byte) (s : State) : (setBval v s).engine = s.engine := rfl
@[simp] theorem setBval_inputs (v : Byte) (s : State) : (setBval v s).inputs = s.inputs := rfl
@[simp] theorem setBval_responses (v : Byte) (s : State) : (setBval v s).responses = s.responses := rfl
@[simp] theorem setBval_bus (v : Byte) (s : State) : (setBval v s).bus = s.bus := rfl
@[simp] theorem setBval_draws (v : Byte) (s : State) : (setBval v s).draws = s.draws := rfl
@[simp] theorem setBval_work (v : Byte) (s : State) : (setBval v s).work = { s.work with bval := v } := rfl

/-! `setErr` -/
@[simp] theorem setErr_mem (v : Err) (s : State) : (setErr v s).mem = s.mem := rfl
@[simp] theorem setErr_engine (v : Err) (s : State) : (setErr v s).engine = s.engine := rfl
@[simp] theorem setErr_inputs (v : Err) (s : State) : (setErr v s).inputs = s.inputs := rfl
@[simp] theorem setErr_responses (v : Err) (s : State) : (setErr v s).responses = s.responses := rfl
@[simp] theorem setErr_bus (v : Err) (s : State) : (setErr v s).bus = s.bus := rfl
@[simp] theorem setErr_draws (v : Err) (s : State) : (setErr v s).draws = s.draws := rfl
@[simp] theorem setErr_work (v : Err) (s : State) : (setErr v s).work = { s.work with err := v } := rfl

/-! `memRead` -/
@[simp] theorem memRead_value (a : Addr) (s : State) : (memRead a s).1 = s.mem.read a := rfl
@[simp] theorem memRead_mem (a : Addr) (s : State) : (memRead a s).2.mem = s.mem := rfl
@[simp] theorem memRead_engine (a : Addr) (s : State) : (memRead a s).2.engine = s.engine := rfl
@[simp] theorem memRead_work (a : Addr) (s : State) : (memRead a s).2.work = s.work := rfl
@[simp] theorem memRead_inputs (a : Addr) (s : State) : (memRead a s).2.inputs = s.inputs := rfl
@[simp] theorem memRead_responses (a : Addr) (s : State) : (memRead a s).2.responses = s.responses := rfl
@[simp] theorem memRead_draws (a : Addr) (s : State) : (memRead a s).2.draws = s.draws := rfl
@[simp] theorem memRead_bus (a : Addr) (s : State) :
    (memRead a s).2.bus = s.bus ++ [.read a (s.mem.read a)] := rfl

/-! `memWrite` -/
@[simp] theorem memWrite_mem (a : Addr) (v : Byte) (s : State) : (memWrite a v s).mem = s.mem.write a v := rfl
@[simp] theorem memWrite_bus (a : Addr) (v : Byte) (s : State) : (memWrite a v s).bus = s.bus ++ [.write a v] := rfl
@[simp] theorem memWrite_engine (a : Addr) (v : Byte) (s : State) : (memWrite a v s).engine = s.engine := rfl
@[simp] theorem memWrite_work (a : Addr) (v : Byte) (s : State) : (memWrite a v s).work = s.work := rfl
@[simp] theorem memWrite_inputs (a : Addr) (v : Byte) (s : State) : (memWrite a v s).inputs = s.inputs := rfl
@[simp] theorem memWrite_responses (a : Addr) (v : Byte) (s : State) : (memWrite a v s).responses = s.responses := rfl
@[simp] theorem memWrite_draws (a : Addr) (v : Byte) (s : State) : (memWrite a v s).draws = s.draws := rfl

/-! `respond` -/
@[simp] theorem respond_engine (e : Err) (r : Word) (s : State) : (respond e r s).engine = .idle := rfl
@[simp] theorem respond_work (e : Err) (r : Word) (s : State) : (respond e r s).work = Working.free s.draws := rfl
@[simp] theorem respond_responses (e : Err) (r : Word) (s : State) : (respond e r s).responses = s.responses ++ [response e r] := rfl
@[simp] theorem respond_draws (e : Err) (r : Word) (s : State) : (respond e r s).draws = s.draws + 1 := rfl
@[simp] theorem respond_mem (e : Err) (r : Word) (s : State) : (respond e r s).mem = s.mem := rfl
@[simp] theorem respond_inputs (e : Err) (r : Word) (s : State) : (respond e r s).inputs = s.inputs := rfl
@[simp] theorem respond_bus (e : Err) (r : Word) (s : State) : (respond e r s).bus = s.bus := rfl

/-! `accept` -/
@[simp] theorem accept_engine (c : Command) (s : State) : (accept c s).engine = .busy c := rfl
@[simp] theorem accept_work (c : Command) (s : State) : (accept c s).work = s.work.start c := rfl
@[simp] theorem accept_mem (c : Command) (s : State) : (accept c s).mem = s.mem := rfl
@[simp] theorem accept_inputs (c : Command) (s : State) : (accept c s).inputs = s.inputs := rfl
@[simp] theorem accept_responses (c : Command) (s : State) : (accept c s).responses = s.responses := rfl
@[simp] theorem accept_bus (c : Command) (s : State) : (accept c s).bus = s.bus := rfl
@[simp] theorem accept_draws (c : Command) (s : State) : (accept c s).draws = s.draws := rfl

/-! `applyReset` -/
@[simp] theorem applyReset_engine  (s : State) : (applyReset s).engine = .idle := rfl
@[simp] theorem applyReset_work  (s : State) : (applyReset s).work = Working.reset := rfl
@[simp] theorem applyReset_mem  (s : State) : (applyReset s).mem = s.mem := rfl
@[simp] theorem applyReset_inputs  (s : State) : (applyReset s).inputs = s.inputs := rfl
@[simp] theorem applyReset_responses  (s : State) : (applyReset s).responses = s.responses := rfl
@[simp] theorem applyReset_bus  (s : State) : (applyReset s).bus = s.bus := rfl
@[simp] theorem applyReset_draws  (s : State) : (applyReset s).draws = s.draws := rfl

/-! `hostWrite` -/
@[simp] theorem hostWrite_mem (a : Addr) (v : Byte) (s : State) : (hostWrite a v s).mem = s.mem.write a v := rfl
@[simp] theorem hostWrite_engine (a : Addr) (v : Byte) (s : State) : (hostWrite a v s).engine = s.engine := rfl
@[simp] theorem hostWrite_work (a : Addr) (v : Byte) (s : State) : (hostWrite a v s).work = s.work := rfl
@[simp] theorem hostWrite_inputs (a : Addr) (v : Byte) (s : State) : (hostWrite a v s).inputs = s.inputs := rfl
@[simp] theorem hostWrite_responses (a : Addr) (v : Byte) (s : State) : (hostWrite a v s).responses = s.responses := rfl
@[simp] theorem hostWrite_bus (a : Addr) (v : Byte) (s : State) : (hostWrite a v s).bus = s.bus := rfl
@[simp] theorem hostWrite_draws (a : Addr) (v : Byte) (s : State) : (hostWrite a v s).draws = s.draws := rfl

/-! `completed` -/
@[simp] theorem completed_mem (m : Memory) (l : List Access) (e : Err) (r : Word) (s : State) : (completed m l e r s).mem = m := rfl
@[simp] theorem completed_bus (m : Memory) (l : List Access) (e : Err) (r : Word) (s : State) : (completed m l e r s).bus = s.bus ++ l := rfl
@[simp] theorem completed_engine (m : Memory) (l : List Access) (e : Err) (r : Word) (s : State) : (completed m l e r s).engine = .idle := rfl
@[simp] theorem completed_work (m : Memory) (l : List Access) (e : Err) (r : Word) (s : State) : (completed m l e r s).work = Working.free s.draws := rfl
@[simp] theorem completed_responses (m : Memory) (l : List Access) (e : Err) (r : Word) (s : State) : (completed m l e r s).responses = s.responses ++ [response e r] := rfl
@[simp] theorem completed_inputs (m : Memory) (l : List Access) (e : Err) (r : Word) (s : State) : (completed m l e r s).inputs = s.inputs := rfl
@[simp] theorem completed_draws (m : Memory) (l : List Access) (e : Err) (r : Word) (s : State) : (completed m l e r s).draws = s.draws + 1 := rfl

/-- A response after whatever a command did is the completed command. -/
theorem respond_eq_completed (e : Err) (r : Word) (l : List Access) {s t : State}
    (hb : t.bus = s.bus ++ l) (hi : t.inputs = s.inputs) (hr : t.responses = s.responses)
    (hd : t.draws = s.draws) : respond e r t = completed t.mem l e r s := by
  cases s; cases t; simp_all [respond, completed]

end Sys2Proof.Machine
end

