-- ==== Sys2Proof/Laws/Commands.lean ====
section
/-! SUPPORT. What the shared operations of the commands do, once each: `str_bytes`, `set_bit`,
`get_bit`, `three_indices`. Later proofs cite these and do not unfold the operations. -/

namespace Sys2Proof.Machine

/-! ## Memory by bits -/

/-- Or-ing a mask in: the written cell gets its bit, every other bit of memory stays. -/
theorem Memory.setBitIn_getLsbD {m : Memory} (hm : m.wf) (a b : Addr) (i : Word) (k : Nat) :
    ((m.setBitIn a i).read b).getLsbD k =
      ((m.read b).getLsbD k || (decide (b = a) && decide (k = i.toNat % 8))) := by
  unfold Memory.setBitIn
  by_cases h : b = a
  · rw [h, Memory.read_write_same hm, or_mask_getLsbD]; simp
  · rw [Memory.read_write_other m _ h]; simp [h]

/-- Or-ing a mask in keeps the canonical form. -/
theorem Memory.setBitIn_wf {m : Memory} (hm : m.wf) (a : Addr) (i : Word) : (m.setBitIn a i).wf :=
  Memory.write_wf hm _ _

/-- The bit just set reads 1. -/
theorem Memory.setBitIn_self {m : Memory} (hm : m.wf) (a : Addr) (i : Word) :
    ((m.setBitIn a i).read a).getLsbD (i.toNat % 8) = true := by
  simp [Memory.setBitIn_getLsbD hm]

/-- A bit that was set stays set. -/
theorem Memory.setBitIn_mono {m : Memory} (hm : m.wf) (a b : Addr) (i : Word) {k : Nat}
    (h : (m.read b).getLsbD k = true) : ((m.setBitIn a i).read b).getLsbD k = true := by
  simp [Memory.setBitIn_getLsbD hm, h]

/-! ## `str_bytes` -/

/-- `s` once the string `bs` at `p` has been read. -/
def afterString (p : Addr) (bs : List Byte) (s : State) : State :=
  { s with
    bus := s.bus ++ stringReads p bs
    work := { s.work with sptr := p + BitVec.ofNat 32 bs.length, ch := 0 } }

/-- One turn of the loop of `str_bytes`. -/
theorem strLoop_succ (fuel : Nat) (bs : List Byte) (s : State) :
    strLoop (fuel + 1) bs s =
      if s.mem.read s.work.sptr = 0 then
        .ok (bs, setCh (s.mem.read s.work.sptr) (memRead s.work.sptr s).2)
      else if s.work.sptr < Config.topAddr then
        strLoop fuel (bs ++ [s.mem.read s.work.sptr])
          (setSptr (s.work.sptr + 1) (setCh (s.mem.read s.work.sptr) (memRead s.work.sptr s).2))
      else .error .stringUnterminated := rfl

/-- The loop of `str_bytes` reads the string that memory holds, or refuses. -/
theorem strLoop_eq (fuel : Nat) (bs : List Byte) (s : State)
    (hf : s.work.sptr.toNat + fuel = 2 ^ 32) :
    strLoop fuel bs s =
      match s.mem.stringWithin fuel s.work.sptr with
      | none => .error .stringUnterminated
      | some cs => .ok (bs ++ cs, afterString s.work.sptr cs s) := by
  induction fuel generalizing bs s with
  | zero => rfl
  | succ fuel ih =>
    by_cases hc : s.mem.read s.work.sptr = 0
    · simp [strLoop_succ, Memory.stringWithin, hc, afterString, stringReads, setCh, memRead]
    · by_cases ht : s.work.sptr < Config.topAddr
      · have hp : (s.work.sptr + 1).toNat = s.work.sptr.toNat + 1 := by
          have : s.work.sptr.toNat < 4294967295 := ht
          rw [BitVec.toNat_add]; simp; omega
        have h := ih (bs ++ [s.mem.read s.work.sptr])
          (setSptr (s.work.sptr + 1) (setCh (s.mem.read s.work.sptr) (memRead s.work.sptr s).2))
          (by simp only [setSptr_work, setCh_work, memRead_work]; omega)
        rw [strLoop_succ, if_neg hc, if_pos ht, h]
        simp only [setSptr_work, setCh_work, memRead_work, setSptr_mem, setCh_mem, memRead_mem,
          Memory.stringWithin, hc, if_false]
        cases s.mem.stringWithin fuel (s.work.sptr + 1) with
        | none => rfl
        | some cs =>
          simp only [Option.map_some, Except.ok.injEq, Prod.mk.injEq, List.append_assoc,
            List.singleton_append, true_and, afterString, stringReads, List.length_cons]
          simp only [setSptr, setCh, memRead, List.append_assoc, List.singleton_append,
            State.mk.injEq, Working.mk.injEq, true_and, and_true]
          apply BitVec.eq_of_toNat_eq
          simp [BitVec.toNat_add]; omega
      · have h0 : fuel = 0 := by
          have : ¬ s.work.sptr.toNat < 4294967295 := ht
          omega
        subst h0
        rw [strLoop_succ, if_neg hc, if_neg ht]
        simp only [Memory.stringWithin, if_neg hc, Option.map_none]

/-- `str_bytes(p)` gives the string at `p`, or refuses where memory holds none. -/
theorem strBytes_eq (p : Addr) (s : State) :
    strBytes p s =
      match s.mem.string p with
      | none => .error .stringUnterminated
      | some bs => .ok (bs, afterString p bs s) := by
  have hp := p.isLt
  unfold strBytes Memory.string
  rw [strLoop_eq _ _ _ (by simp only [setSptr_work, Config.spaceSize]; omega)]
  simp only [setSptr_work, setSptr_mem]
  cases s.mem.stringWithin (Config.spaceSize - p.toNat) p with
  | none => rfl
  | some bs => simp [afterString, setSptr]

/-! ## `set_bit` and `get_bit` -/

/-- `s` once `set_bit` has set the bit of `index` in cell `a`. -/
def afterSetBit (a : Addr) (index : Word) (s : State) : State :=
  { s with
    mem := s.mem.setBitIn a index
    bus := s.bus ++ setAccesses s.mem a index
    work := { s.work with baddr := a, bmask := mask index, bval := s.mem.read a } }

/-- `s` once `get_bit` has read the bit of `index` in cell `a`. -/
def afterGetBit (a : Addr) (index : Word) (s : State) : State :=
  { s with
    bus := s.bus ++ [.read a (s.mem.read a)]
    work := { s.work with baddr := a, bmask := mask index, bval := s.mem.read a } }

/-- Everything `set_bit` can do. -/
theorem setBit_eq (array : Addr) (index n : Word) (s : State) :
    setBit array index n s =
      if array = Config.null then .ok (raiseErr .nullStorage s)
      else if n ≤ index then .ok (raiseErr .indexRange s)
      else match byteAddr array index with
        | none => .error .arrayPastTop
        | some a => .ok (afterSetBit a index s) := by
  unfold setBit
  split <;> [rfl; skip]
  split <;> [rfl; skip]
  cases byteAddr array index with
  | none => rfl
  | some a => simp [afterSetBit, setAccesses, Memory.setBitIn, memWrite, memRead, setBval, setBmask, setBaddr]

/-- Everything `get_bit` can do. -/
theorem getBit_eq (array : Addr) (index n : Word) (s : State) :
    getBit array index n s =
      if array = Config.null then .ok (Config.sentinel, raiseErr .nullStorage s)
      else if n ≤ index then .ok (Config.sentinel, raiseErr .indexRange s)
      else match byteAddr array index with
        | none => .error .arrayPastTop
        | some a => .ok (s.mem.bitIn a index, afterGetBit a index s) := by
  unfold getBit
  split <;> [rfl; skip]
  split <;> [rfl; skip]
  cases byteAddr array index with
  | none => rfl
  | some a =>
    simp only [Memory.bitIn, ← and_mask_ne_zero]
    rfl

/-! ## `three_indices` -/

/-- `s` once the three indices of the string `bs` at `p` stand in their registers. -/
def afterIndices (p : Addr) (bs : List Byte) (n : Word) (s : State) : State :=
  setIdx3 (hash3 bs % n) (setIdx2 (hash2 bs % n) (setIdx1 (hash1 bs % n)
    (setAcc3 (hash3 bs) (setAcc2 (hash2 bs) (setAcc1 (hash1 bs) (afterString p bs s))))))

/-- Everything `three_indices` can do. -/
theorem threeIndices_eq (p : Addr) (n : Word) (s : State) :
    threeIndices p n s =
      match s.mem.string p with
      | none => .error .stringUnterminated
      | some bs => if n = 0 then .error .capacityZero else .ok (afterIndices p bs n s) := by
  unfold threeIndices
  rw [strBytes_eq]
  cases s.mem.string p with
  | none => rfl
  | some bs =>
    simp only [reduceOrRefuse_eq]
    split <;> rfl

/-! ## Errors -/

@[simp] theorem raiseErr_mem (e : Err) (s : State) : (raiseErr e s).mem = s.mem := by
  unfold raiseErr; split <;> rfl
@[simp] theorem raiseErr_bus (e : Err) (s : State) : (raiseErr e s).bus = s.bus := by
  unfold raiseErr; split <;> rfl
@[simp] theorem raiseErr_inputs (e : Err) (s : State) : (raiseErr e s).inputs = s.inputs := by
  unfold raiseErr; split <;> rfl
@[simp] theorem raiseErr_responses (e : Err) (s : State) : (raiseErr e s).responses = s.responses := by
  unfold raiseErr; split <;> rfl
@[simp] theorem raiseErr_draws (e : Err) (s : State) : (raiseErr e s).draws = s.draws := by
  unfold raiseErr; split <;> rfl
@[simp] theorem raiseErr_engine (e : Err) (s : State) : (raiseErr e s).engine = s.engine := by
  unfold raiseErr; split <;> rfl
/-- `raise` keeps the first error of the command. -/
@[simp] theorem raiseErr_err (e : Err) (s : State) :
    (raiseErr e s).work.err = if s.work.err = .ok then e else s.work.err := by
  unfold raiseErr; split <;> rfl
@[simp] theorem raiseErr_idx1 (e : Err) (s : State) : (raiseErr e s).work.idx1 = s.work.idx1 := by
  unfold raiseErr; split <;> rfl
@[simp] theorem raiseErr_idx2 (e : Err) (s : State) : (raiseErr e s).work.idx2 = s.work.idx2 := by
  unfold raiseErr; split <;> rfl
@[simp] theorem raiseErr_idx3 (e : Err) (s : State) : (raiseErr e s).work.idx3 = s.work.idx3 := by
  unfold raiseErr; split <;> rfl

end Sys2Proof.Machine
end

