-- ==== Sys2Proof/Laws/Decode.lean ====
section
/-! SUPPORT. The fields of a packed descriptor (30_encoding.md R61). -/

namespace Sys2Proof

variable (op : BitVec 8) (array arg nbits : Word)

/-- Every bit of a packed descriptor. -/
theorem packCommand_getLsbD (k : Nat) :
    (packCommand op array arg nbits).getLsbD k =
      if k < 8 then op.getLsbD k
      else if k < 32 then false
      else if k < 64 then array.getLsbD (k - 32)
      else if k < 96 then arg.getLsbD (k - 64)
      else nbits.getLsbD (k - 96) := by
  show BitVec.getLsbD (nbits ++ (arg ++ (array ++ (0#24 ++ op)))) k = _
  simp only [BitVec.getLsbD_append, BitVec.getLsbD_zero]
  split_ifs <;> first | rfl | omega

theorem packCommand_op : (packCommand op array arg nbits).op = op := by
  refine BitVec.eq_of_getLsbD_eq fun k hk => ?_
  simp [Command.op, packCommand_getLsbD, hk]

theorem packCommand_rsv0 : (packCommand op array arg nbits).rsv0 = 0 := by
  refine BitVec.eq_of_getLsbD_eq fun k hk => ?_
  have : 8 + k < 32 := by omega
  simp [Command.rsv0, packCommand_getLsbD, this]

theorem packCommand_array : (packCommand op array arg nbits).array = array := by
  refine BitVec.eq_of_getLsbD_eq fun k hk => ?_
  have h1 : ¬ 32 + k < 8 := by omega
  have h2 : 32 + k < 64 := by omega
  simp [Command.array, packCommand_getLsbD, h1, h2, hk]

theorem packCommand_arg : (packCommand op array arg nbits).arg = arg := by
  refine BitVec.eq_of_getLsbD_eq fun k hk => ?_
  have h1 : ¬ 64 + k < 8 := by omega
  have h2 : ¬ 64 + k < 32 := by omega
  have h3 : 64 + k < 96 := by omega
  simp [Command.arg, packCommand_getLsbD, h1, h2, h3, hk]

theorem packCommand_nbits : (packCommand op array arg nbits).nbits = nbits := by
  refine BitVec.eq_of_getLsbD_eq fun k hk => ?_
  have h1 : ¬ 96 + k < 8 := by omega
  have h2 : ¬ 96 + k < 32 := by omega
  have h3 : ¬ 96 + k < 64 := by omega
  simp [Command.nbits, packCommand_getLsbD, h1, h2, h3, hk]

end Sys2Proof
end

