-- ==== Sys2Proof/Laws/Flags.lean ====
section
/-! SUPPORT. The fields of a response (30_encoding.md R66). -/

namespace Sys2Proof.Machine

/-- A 2-bit code is the code of one error. -/
@[simp] theorem Err.ofCode_code (e : Err) : Err.ofCode e.code = e := by cases e <;> rfl

/-- `STATUS` is the code. -/
theorem status_toNat (e : Err) : e.status.toNat = e.code.toNat := by cases e <;> rfl

/-- Every bit of a response. -/
theorem response_getLsbD (e : Err) (r : Word) (k : Nat) :
    (response e r).getLsbD k = if k < 32 then e.status.getLsbD k else r.getLsbD (k - 32) := by
  show BitVec.getLsbD (r ++ e.status) k = _
  rw [BitVec.getLsbD_append]

@[simp] theorem resultOf_response (e : Err) (r : Word) : resultOf (response e r) = r := by
  refine BitVec.eq_of_getLsbD_eq fun k hk => ?_
  simp [resultOf, response_getLsbD, hk]

@[simp] theorem statusOf_response (e : Err) (r : Word) : statusOf (response e r) = e.status := by
  refine BitVec.eq_of_getLsbD_eq fun k hk => ?_
  simp [statusOf, response_getLsbD, hk]

@[simp] theorem errOf_response (e : Err) (r : Word) : errOf (response e r) = e := by
  have h : (response e r).extractLsb' 0 2 = e.code := by
    refine BitVec.eq_of_getLsbD_eq fun k hk => ?_
    rw [BitVec.getLsbD_extractLsb', response_getLsbD]
    cases e <;> interval_cases k <;> rfl
  rw [errOf, h, Err.ofCode_code]

end Sys2Proof.Machine
end

