-- ==== Sys2Proof/Laws/PerInstr.lean ====
section
/-! SUPPORT. Statements made of every instruction, one lemma a constructor. -/

namespace Sys2Proof.Laws.FieldsKept

/-- The encoding of the instruction carries its opcode, 0 in `RSV0`, and its three fields at their
places in the descriptor (30_encoding.md R61, R63). -/
def Statement (i : Instr) : Prop :=
  (encode i).op = i.opcode ∧ (encode i).rsv0 = 0 ∧ (encode i).array = i.array ∧
    (encode i).arg = i.arg ∧ (encode i).nbits = i.nbits

/-- A packed descriptor carries its fields. -/
theorem of_pack (i : Instr) : Statement i :=
  ⟨packCommand_op .., packCommand_rsv0 .., packCommand_array .., packCommand_arg .., packCommand_nbits ..⟩

theorem hash1 (array strp nbits : Word) : Statement (.hash1 array strp nbits) := of_pack _
theorem hash2 (array strp nbits : Word) : Statement (.hash2 array strp nbits) := of_pack _
theorem hash3 (array strp nbits : Word) : Statement (.hash3 array strp nbits) := of_pack _
theorem setbit (array index nbits : Word) : Statement (.setbit array index nbits) := of_pack _
theorem getbit (array index nbits : Word) : Statement (.getbit array index nbits) := of_pack _
theorem insert (array strp nbits : Word) : Statement (.insert array strp nbits) := of_pack _
theorem check (array strp nbits : Word) : Statement (.check array strp nbits) := of_pack _

end Sys2Proof.Laws.FieldsKept
end

