-- ==== Sys2Proof/Laws/Step.lean ====
section
/-! SUPPORT. Everything a step can do, said once (10_state.md R28; 70_reset_and_hazards.md R160, R161,
R165, R173). -/

namespace Sys2Proof.Machine

/-- Performing accesses keeps memory's canonical form. -/
theorem foldl_apply_wf {m : Memory} (hm : m.wf) (l : List Access) : (l.foldl Access.apply m).wf := by
  induction l generalizing m with
  | nil => exact hm
  | cons x l ih =>
    cases x with
    | read a v => exact ih hm
    | write a v => exact ih (Memory.write_wf hm _ _)

/-- What a step that answers a next state did. -/
inductive StepCase (s t : State) : Prop where
  /-- `IDLE`, and the host does nothing. -/
  | waits (hi : s.engine = .idle) (hn : s.inputs = []) (ht : t = s)
  /-- `IDLE`: a command is accepted. -/
  | accepts (c : Command) (rest : List HostInput) (hi : s.engine = .idle)
      (hn : s.inputs = .command c :: rest) (ht : t = accept c { s with inputs := rest })
  /-- `IDLE`: RESET. -/
  | resets (x : HostInput) (rest : List HostInput) (hi : s.engine = .idle)
      (hn : s.inputs = x :: rest) (ht : t = applyReset { s with inputs := rest })
  /-- A host write, `IDLE` or `BUSY`. -/
  | writes (x : HostInput) (a : Addr) (v : Byte) (rest : List HostInput)
      (hn : s.inputs = x :: rest) (ht : t = hostWrite a v { s with inputs := rest })
  /-- `BUSY`: RESET abandons the command. -/
  | abandons (c : Command) (done : Nat) (rest : List HostInput) (whole : State) (hb : s.engine = .busy c)
      (hn : s.inputs = .resetNow done :: rest)
      (hr : runCommand c { s with inputs := rest } = .next whole)
      (ht : t = applyReset { s with
        inputs := rest
        mem := ((whole.bus.drop s.bus.length).take done).foldl Access.apply s.mem
        bus := s.bus ++ (whole.bus.drop s.bus.length).take done })
  /-- `BUSY`: the command runs to its response. -/
  | runs (c : Command) (hb : s.engine = .busy c) (hr : runCommand c s = .next t)

/-- Every step that answers a next state is one of these. -/
theorem step_cases {s t : State} (h : step s = .next t) : StepCase s t := by
  unfold step engineStep at h
  cases he : s.engine with
  | idle =>
    rw [he] at h
    simp only [idleStep] at h
    split at h <;> simp only [Host.Outcome.next.injEq] at h <;> subst h
    · exact .waits he (by assumption) rfl
    · exact .accepts _ _ he (by assumption) rfl
    · exact .writes _ _ _ _ (by assumption) rfl
    · exact .writes _ _ _ _ (by assumption) rfl
    · exact .resets _ _ he (by assumption) rfl
    · exact .resets _ _ he (by assumption) rfl
  | busy c =>
    rw [he] at h
    simp only [busyStep] at h
    split at h
    · next done rest hn =>
      cases hr : runCommand c { s with inputs := rest } with
      | next whole =>
        rw [hr] at h
        simp only [abandon, Host.Outcome.next.injEq] at h
        exact .abandons c done rest whole he hn hr h.symm
      | fault r => rw [hr] at h; simp [abandon] at h
      | refused r => rw [hr] at h; simp [abandon] at h
    · split at h
      · simp at h
      · simp only [Host.Outcome.next.injEq] at h
        exact .writes _ _ _ _ (by assumption) h.symm
    all_goals exact .runs c he h

/-- A run whose first step answers `t` goes on from `t`. -/
theorem steps_succ {k : Nat} {s t : State} (h : step s = .next t) : steps (k + 1) s = steps k t := by
  simp [steps, h]

/-- A run of `k + l` steps is a run of `k` and then one of `l`. -/
theorem steps_add (k l : Nat) {s t : State} (h : steps k s = .next t) : steps (k + l) s = steps l t := by
  induction k generalizing s with
  | zero => simp only [steps, Host.Outcome.next.injEq] at h; subst h; rw [Nat.zero_add]
  | succ k ih =>
    cases hs : step s with
    | next u => rw [Nat.succ_add, steps_succ hs]; exact ih (by rwa [steps_succ hs] at h)
    | fault r => simp [steps, hs] at h
    | refused r => simp [steps, hs] at h

end Sys2Proof.Machine
end

