-- ==== Sys2Proof/Tests/Slice0.lean ====
section
/-! SUPPORT. Tests on the spec's own vectors (95_test_vectors.md; 30_encoding.md R69, R71), and for
every statement with hypotheses a concrete state and operands that meet them. -/

namespace Sys2Proof.Tests

open Sys2Proof.Machine

/-! ## Helpers -/

/-- The state after reset with the memory given. -/
def st (m : Memory) : State := { State.reset with mem := m }

/-- `st` with host inputs waiting. -/
def stIn (m : Memory) (inputs : List HostInput) : State := { State.reset with mem := m, inputs := inputs }

/-- The engine with `c` in flight and host inputs waiting. -/
def stBusy (c : Command) (m : Memory) (inputs : List HostInput) : State := accept c (stIn m inputs)

/-- The outcome is a next state of which `p` holds. -/
def nextSat (p : State → Bool) : Outcome → Bool
  | .next t => p t
  | .fault _ => false
  | .refused _ => false

/-- The next state delivers `r` after making `made`, and its memory is `m`. -/
def gives (m : Memory) (made : List Access) (r : Response) : Outcome → Bool :=
  nextSat fun t => decide (t.mem = m ∧ t.bus = made ∧ t.responses = [r] ∧ t.engine = .idle)

/-- The outcome is the refusal given. -/
def refuses (r : Refusal) : Outcome → Bool
  | .refused r' => decide (r = r')
  | .next _ => false
  | .fault _ => false

theorem exists_next {p : State → Bool} {o : Outcome} (h : nextSat p o = true) : ∃ t, o = .next t ∧ p t = true := by
  cases o with
  | next t => exact ⟨t, rfl, h⟩
  | fault r => cases h
  | refused r => cases h

/-- "apple" at 0x2000 and the null after it. -/
def apple : Memory := [(0x2000, 0x61), (0x2001, 0x70), (0x2002, 0x70), (0x2003, 0x6C), (0x2004, 0x65)]

/-- The string reads of "apple" (95_test_vectors.md P1 step 1). -/
def appleReads : List Access :=
  [.read 0x2000 0x61, .read 0x2001 0x70, .read 0x2002 0x70, .read 0x2003 0x6C, .read 0x2004 0x65, .read 0x2005 0]

/-- "ca" at 0x2008. -/
def ca : Memory := [(0x2008, 0x63), (0x2009, 0x61)]

/-- A byte 1 in every cell from `strp` = 0xFFFFFFFF up: the string there is unterminated. -/
def endless : Memory := [(0xFFFFFFFF, 0x41)]

/-! ## Decoding and encoding: words from the spec's encodings -/

/-- 95_test_vectors.md H24. -/
theorem test_decode_hash1 :
    decode 0x0000000000002000DEADBEEF00000001 = .ok (.hash1 0xDEADBEEF 0x2000 0) := by decide
/-- 95_test_vectors.md H25. -/
theorem test_decode_hash2 :
    decode 0xFFFFFFFF000020000000000000000002 = .ok (.hash2 0 0x2000 0xFFFFFFFF) := by decide
/-- 95_test_vectors.md H27. -/
theorem test_decode_hash3 : decode 0x00000000000020050000000000000003 = .ok (.hash3 0 0x2005 0) := by decide
/-- 95_test_vectors.md B2. -/
theorem test_decode_setbit : decode 0x00000008000000070000010000000004 = .ok (.setbit 0x100 7 8) := by decide
/-- 95_test_vectors.md B20. -/
theorem test_decode_getbit : decode 0x0000000D000000090000010000000005 = .ok (.getbit 0x100 9 13) := by decide
/-- 30_encoding.md R71. -/
theorem test_decode_insert :
    decode 0x00000400000020000000100000000006 = .ok (.insert 0x1000 0x2000 0x400) := by decide
/-- 95_test_vectors.md X2. -/
theorem test_decode_check : decode 0x00000400000020000000000000000007 = .ok (.check 0 0x2000 1024) := by decide

/-- 95_test_vectors.md I1 to I5: each illegal descriptor is refused by name. -/
theorem test_illegal_descriptors :
    decode 0x00000000 = .error .opcodeZero ∧ decode 0x00000008 = .error .opcodeReserved ∧
    decode 0x000000FF = .error .opcodeReserved ∧ decode 0x00000106 = .error .reservedField ∧
    decode 0x80000001 = .error .reservedField := by decide

/-- The same descriptors are not well-formed, and the lowest and highest legal ones are. -/
theorem test_wellFormed_refuses :
    Command.wellFormed 0x00000000 = false ∧ Command.wellFormed 0x00000008 = false ∧
    Command.wellFormed 0x000000FF = false ∧ Command.wellFormed 0x00000106 = false ∧
    Command.wellFormed 0x80000001 = false ∧ Command.wellFormed 0x00000001 = true ∧
    Command.wellFormed 0x00000007 = true := by decide

/-- R69: the assembler writes 0 in the ignored fields, so a term with another value there is not its form. -/
theorem test_assembled_refuses :
    Instr.assembled (.hash1 0xDEADBEEF 0x2000 0) = false ∧ Instr.assembled (.hash2 0 0x2000 1) = false ∧
    Instr.assembled (.hash3 1 0 0) = false ∧ Instr.assembled (.hash1 0 0x2000 0) = true := by decide

/-- R69 and 95_test_vectors.md: the notation gives the descriptor printed beside it. -/
theorem test_asm :
    asmHash1 0x2000 = 0x00000000000020000000000000000001 ∧ asmHash2 0 = 0x00000000000000000000000000000002 ∧
    asmHash3 0x2005 = 0x00000000000020050000000000000003 ∧
    asmSetbit 0x100 7 8 = 0x00000008000000070000010000000004 ∧
    asmGetbit 0x100 9 13 = 0x0000000D000000090000010000000005 ∧
    asmInsert 0x1000 0x2008 1024 = 0x00000400000020080000100000000006 ∧
    asmCheck 0 0x2000 1024 = 0x00000400000020000000000000000007 := by decide

/-- The opcode table's numbering is that of `CMD` (R63; 95_test_vectors.md B2, I4). -/
theorem test_table_word :
    decodeTableWord 128 0x00000008000000070000010000000004 = some (.setbit 0x100 7 8) ∧
    decodeTableWord 32 0x00000006 = some (.insert 0 0 0) ∧ decodeTableWord 128 0x00000106 = none := by decide

/-! ## One step of each command, on the spec's vectors -/

/-- 95_test_vectors.md H24: the ignored fields have no effect. -/
theorem test_hash1_apple :
    gives apple appleReads 0x0F199E3700000000 (exec (.hash1 0xDEADBEEF 0x2000 0) (st apple)) = true := by decide
/-- 95_test_vectors.md H1: the empty string, after one read. -/
theorem test_hash1_empty :
    gives apple [.read 0x2005 0] 0x0000150500000000 (exec (.hash1 0 0x2005 0) (st apple)) = true := by decide
/-- 95_test_vectors.md H26: a string at address 0. -/
theorem test_hash2_at_zero :
    gives [(0, 0x61)] [.read 0 0x61, .read 1 0] 0x0000006100000000 (exec (.hash2 0 0 0) (st [(0, 0x61)])) = true := by
  decide
/-- 95_test_vectors.md H21: bytes above 0x7F. -/
theorem test_hash2_high_bytes :
    lastResponse (exec (.hash2 0 0x10 0) (st [(0x10, 0xFF), (0x11, 0xFF)])) = some 0x00FF3FC000000000 := by decide
/-- 95_test_vectors.md P1 step 6. -/
theorem test_hash3_apple :
    gives apple appleReads 0x06B843B300000000 (exec (.hash3 0 0x2000 0) (st apple)) = true := by decide
/-- 95_test_vectors.md H21. -/
theorem test_hash3_high_bytes :
    lastResponse (exec (.hash3 0 0x10 0) (st [(0x10, 0xFF), (0x11, 0xFF)])) = some 0x000021E100000000 := by decide
/-- 95_test_vectors.md B2. -/
theorem test_setbit_bit7 :
    gives [(0x100, 0x81)] [.read 0x100 0x01, .write 0x100 0x81] 0
      (exec (.setbit 0x100 7 8) (st [(0x100, 0x01)])) = true := by decide
/-- 95_test_vectors.md P2 steps 4 and 6: both errors. -/
theorem test_setbit_errors :
    gives [(0x101, 0x10)] [] 2 (exec (.setbit 0x100 13 13) (st [(0x101, 0x10)])) = true ∧
    gives [(0x101, 0x10)] [] 1 (exec (.setbit 0 12 13) (st [(0x101, 0x10)])) = true := by decide
/-- 95_test_vectors.md B20 and B7: only the addressed bit decides. -/
theorem test_getbit_values :
    gives [(0x101, 0xFD)] [.read 0x101 0xFD] 0 (exec (.getbit 0x100 9 13) (st [(0x101, 0xFD)])) = true ∧
    gives [(0x100, 0x08)] [.read 0x100 0x08] 0x0000000100000000
      (exec (.getbit 0x100 3 8) (st [(0x100, 0x08)])) = true := by decide
/-- 95_test_vectors.md P2 steps 7 and 12. -/
theorem test_getbit_errors :
    gives [] [] 0xFFFFFFFF00000001 (exec (.getbit 0 13 13) (st [])) = true ∧
    gives [] [] 0xFFFFFFFF00000002 (exec (.getbit 0x100 0xFFFFFFFF 0xFFFFFFFF) (st [])) = true := by decide
/-- 95_test_vectors.md X3: two of the three indices share a cell. -/
theorem test_insert_ca :
    gives [(0x1017, 0x44), (0x106D, 0x02), (0x2008, 0x63), (0x2009, 0x61)]
      [.read 0x2008 0x63, .read 0x2009 0x61, .read 0x200A 0, .read 0x106D 0, .write 0x106D 0x02,
        .read 0x1017 0, .write 0x1017 0x40, .read 0x1017 0x40, .write 0x1017 0x44] 0
      (exec (.insert 0x1000 0x2008 1024) (st ca)) = true := by decide
/-- 95_test_vectors.md X1: the null array. -/
theorem test_insert_null :
    gives apple appleReads 1 (exec (.insert 0 0x2000 1024) (st apple)) = true := by decide
/-- 95_test_vectors.md X7: all three reads, no early exit. -/
theorem test_check_zeroed :
    gives apple (appleReads ++ [.read 0x1046 0, .read 0x104B 0, .read 0x1076 0]) 0
      (exec (.check 0x1000 0x2000 1024) (st apple)) = true := by decide
/-- 95_test_vectors.md X5: a false positive. -/
theorem test_check_false_positive :
    gives [(0x1000, 0x88), (0x1001, 0x04), (0x2010, 0x64), (0x2011, 0x6E)]
      [.read 0x2010 0x64, .read 0x2011 0x6E, .read 0x2012 0, .read 0x1000 0x88, .read 0x1001 0x04, .read 0x1000 0x88]
      0x0000000100000000
      (exec (.check 0x1000 0x2010 16) (st [(0x1000, 0x88), (0x1001, 0x04), (0x2010, 0x64), (0x2011, 0x6E)])) = true := by
  decide

/-! ## The engine -/

/-- 95_test_vectors.md I4, 30_encoding.md R64: an illegal descriptor in flight. -/
theorem test_step_illegal : gives apple [] 0xFFFFFFFF00000003 (step (stBusy 0x00000106 apple [])) = true := by decide

/-- The next step runs a command placed by `withFetchWord` (95_test_vectors.md B2). -/
theorem test_step_fetch_word :
    gives [(0x100, 0x81)] [.read 0x100 0x01, .write 0x100 0x81] 0
      (step ((st [(0x100, 0x01)]).withFetchWord 128 0x00000008000000070000010000000004)) = true := by decide

/-- 70_reset_and_hazards.md R161 on 95_test_vectors.md X3: RESET after five accesses leaves the first
write and not the others. -/
theorem test_step_reset_in_flight :
    nextSat (fun t => decide (t.mem = [(0x106D, 0x02), (0x2008, 0x63), (0x2009, 0x61)] ∧ t.responses = [] ∧
      t.engine = .idle ∧ t.bus.length = 5))
      (step (stBusy 0x00000400000020080000100000000006 ca [.resetNow 5])) = true := by decide

/-- 70_reset_and_hazards.md R165: a write to the null of the string being read has no step. -/
theorem test_step_foreign_write :
    (match step (stBusy 0x00000000000020000000000000000001 apple [.writeNow 0x2005 0x73]) with
      | .fault .foreignWrite => true
      | .next _ => false
      | .refused _ => false) = true := by decide

/-- 30_encoding.md R70: the directives place the bytes upward from the address, a null after the text. -/
theorem test_directives :
    ascizDirective 0x2008 [0x63, 0x61] = [.write 0x2008 0x63, .write 0x2009 0x61, .write 0x200A 0] ∧
    zeroDirective 0x100 2 = [.write 0x100 0, .write 0x101 0] ∧ byteDirective 0x5A 0 = [.write 0x5A 0] := by decide

/-! ## Witnesses: what each statement assumes can be met -/

theorem witness_EncodeOfDecodeGivesTheDescriptor :
    decode 0xFFFFFFFF000020000000000000000002 = .ok (.hash2 0 0x2000 0xFFFFFFFF) := test_decode_hash2

theorem witness_LowWordSelectsTheCommand :
    (0x0000000000002000DEADBEEF00000001 : Command) &&& 0x000000000000000000000000FFFFFFFF =
      BitVec.zeroExtend 128 (0x00000001 : Word) ∧
    BitVec.extractLsb' 0 32 (0x0000000000002000DEADBEEF00000001 : Command) = 0x00000001 ∧
    BitVec.extractLsb' 0 32 (0x00000400000020000000000000000007 : Command) = 0x00000007 := by decide

theorem not_ok {c : Command} {e : Illegal} (h : decode c = .error e) (i : Instr) : decode c ≠ .ok i := by
  rw [h]; exact fun h => nomatch h

theorem witness_IllegalDescriptorsAreAnswered :
    (∀ i, decode 0x00000000 ≠ .ok i) ∧ (∀ i, decode 0x00000008 ≠ .ok i) ∧ (∀ i, decode 0x00000106 ≠ .ok i) ∧
    (stIn apple [.command 0x00000106]).engine = .idle ∧
    (stIn apple [.command 0x00000106]).inputs = .command 0x00000106 :: [] ∧
    (stBusy 0x00000106 apple [.reset]).engine = .busy 0x00000106 ∧ (stBusy 0x00000106 apple [.reset]).undisturbed :=
  ⟨not_ok (e := .opcodeZero) (by decide), not_ok (e := .opcodeReserved) (by decide),
    not_ok (e := .reservedField) (by decide), rfl, rfl, rfl, by simp [State.undisturbed, stBusy, stIn, accept, HostInput.now]⟩

theorem witness_Hash3FoldsMix3FromTheLeft :
    ([0x61] : List Byte).length ≤ 1 ∧ hash2 [0x61] = hash3 [0x61] ∧ ([] : List Byte).length ≤ 1 := by decide

theorem witness_StringIsTheBytesBeforeTheNull :
    apple.string 0x2000 = some [0x61, 0x70, 0x70, 0x6C, 0x65] ∧ apple.string 0x2005 = some [] ∧
    Memory.string [] 0xFFFFFFFF = some [] ∧ Memory.string [(0xFFFFFFFE, 0x41)] 0xFFFFFFFE = some [0x41] ∧
    endless.string 0xFFFFFFFF = none := by decide

theorem endless_no_null (q : Addr) (h : (0xFFFFFFFF : Addr).toNat ≤ q.toNat) : endless.read q ≠ 0 := by
  obtain rfl : q = 0xFFFFFFFF := by bv_omega
  decide

theorem witness_StringFetchReadsToTheNull :
    ((0x2000 : Addr).toNat + 5 < 2 ^ 32 ∧ (∀ k < 5, (st apple).mem.read (0x2000 + BitVec.ofNat 32 k) ≠ 0) ∧
      (st apple).mem.read (0x2000 + BitVec.ofNat 32 5) = 0) ∧
    ((0xFFFFFFFF : Addr).toNat + 0 < 2 ^ 32 ∧ (st []).mem.read 0xFFFFFFFF = 0) ∧
    (∀ q : Addr, (0xFFFFFFFF : Addr).toNat ≤ q.toNat → (st endless).mem.read q ≠ 0) :=
  ⟨by decide, by decide, endless_no_null⟩

theorem witness_Hash1AnswersTheHash :
    BitVec.extractLsb' 0 32 (0x0000000000002000DEADBEEF00000001 : Command) = 0x00000001 ∧
    (st apple).mem.string 0x2000 = some [0x61, 0x70, 0x70, 0x6C, 0x65] ∧ (st apple).mem.read 0x2005 = 0 ∧
    (st []).mem.read 0xFFFFFFFF = 0 := by decide

theorem witness_Hash2AnswersTheHash :
    BitVec.extractLsb' 0 32 (0xFFFFFFFF000020000000000000000002 : Command) = 0x00000002 ∧
    (st apple).mem.string 0x2000 = some [0x61, 0x70, 0x70, 0x6C, 0x65] ∧ (st apple).mem.read 0x2005 = 0 := by decide

theorem witness_Hash3AnswersTheHash :
    BitVec.extractLsb' 0 32 (0x00000000000020050000000000000003 : Command) = 0x00000003 ∧
    (st apple).mem.string 0x2000 = some [0x61, 0x70, 0x70, 0x6C, 0x65] ∧ (st apple).mem.read 0x2005 = 0 := by decide

theorem witness_UnterminatedStringIsRefused :
    (∀ q : Addr, (0xFFFFFFFF : Addr).toNat ≤ q.toNat → (st endless).mem.read q ≠ 0) ∧
    refuses .stringUnterminated (exec (.insert 0x1000 0xFFFFFFFF 1024) (st endless)) = true :=
  ⟨endless_no_null, by decide⟩

theorem witness_ReduceIsTheUnsignedRemainder :
    (0xFFFFFFFF : Word) ≠ 0 ∧ (1 : Word) ≠ 0 ∧ (0xFFFFFFFE : Word) < 0xFFFFFFFF ∧ reduce 0xFFFFFFFE 0xFFFFFFFF = some 0xFFFFFFFE ∧
    reduce 0xFFFFFFFF 1 = some 0 := by decide

theorem witness_BitAddressing :
    byteAddr 0xFFFFFFFF 7 = some 0xFFFFFFFF ∧ byteAddr 0xFFFFFFFF 8 = none ∧
    0xFFFFFFFF < (0xFFFFFFFF : Addr).toNat + (8 : Word).toNat / 8 := by decide

theorem witness_LogicalBitStandsLeastSignificantFirst :
    (0x1000 : Addr) ≠ 0 ∧ (567 : Word) < 1024 ∧ (0x1046 : Addr).toNat = (0x1000 : Addr).toNat + (567 : Word).toNat / 8 ∧
    (st [(0x1046, 0x80)]).mem.wf ∧
    lastResponse (exec (.getbit 0x1000 567 1024) (st [(0x1046, 0x80)])) = some 0x0000000100000000 := by decide

theorem witness_SetbitSetsTheBitOrReports :
    BitVec.extractLsb' 0 32 (0x00000008000000070000010000000004 : Command) = 0x00000004 ∧
    ((0x100 : Addr) ≠ 0 ∧ (13 : Word) ≤ 13) ∧
    ((0x100 : Addr) ≠ 0 ∧ (12 : Word) < 13 ∧ byteAddr 0x100 12 = some 0x101) ∧
    (st []).mem.wf ∧ (st []).mem.read 0x101 = 0 := by decide

theorem witness_GetbitAnswersTheBitOrReports :
    BitVec.extractLsb' 0 32 (0x0000000D000000090000010000000005 : Command) = 0x00000005 ∧
    ((0x100 : Addr) ≠ 0 ∧ (13 : Word) ≤ 13) ∧
    ((0x100 : Addr) ≠ 0 ∧ (12 : Word) < 13 ∧ byteAddr 0x100 12 = some 0x101) ∧
    (st [(0x101, 0x10)]).mem.read 0x101 = 0x10 := by decide

theorem witness_SetThenGetAndTheFrame :
    (st [(0x101, 0xE0)]).mem.wf ∧ (0x100 : Addr) ≠ 0 ∧ (12 : Word) < 13 ∧ byteAddr 0x100 12 = some 0x101 := by decide

theorem witness_SetbitIsIdempotent :
    (st [(0x101, 0xE0)]).mem.wf ∧
    (∃ t, exec (.setbit 0x100 12 13) (st [(0x101, 0xE0)]) = .next t ∧ decide (t.mem = [(0x101, 0xF0)]) = true) ∧
    (∃ t, exec (.setbit 0x100 13 13) (st [(0x101, 0xE0)]) = .next t ∧ decide (t.responses = [2]) = true) :=
  ⟨by decide, exists_next (by decide), exists_next (by decide)⟩

theorem witness_CapacityIsTheBoundary :
    (0x100 : Addr) ≠ 0 ∧ (13 : Word) ≠ 0 ∧ arrayFits 0x100 13 ∧ (13 : Word).toNat ≤ (13 : Word).toNat ∧
    arrayFits 0xFFFFFFFF 8 ∧ (0 : Word).toNat ≤ (0 : Word).toNat := by unfold arrayFits; decide

theorem witness_ErrorsLeaveNoTrace :
    (∃ t, exec (.setbit 0 12 13) (st apple) = .next t ∧ decide (t.responses.getLast? = some 1) = true) ∧
    (∃ t, exec (.getbit 0x100 13 13) (st apple) = .next t ∧
      decide (t.responses.getLast? = some 0xFFFFFFFF00000002) = true) ∧
    errOf 1 ≠ .ok ∧ errOf 0xFFFFFFFF00000002 ≠ .ok :=
  ⟨exists_next (by decide), exists_next (by decide), by decide, by decide⟩

/-- The 1024-bit array at 0x1000 is zeroed in a memory that lists nothing below 0x2000. -/
theorem zeroed_of_above {m : Memory} (h : ∀ c ∈ m, 0x2000 ≤ c.1) : zeroed m 0x1000 1024 := by
  intro b _ hb
  have hb' : b.toNat < 0x1080 := hb
  exact Memory.read_of_lt m b fun c hc => Nat.lt_of_lt_of_le (by omega) (h c hc)

theorem witness_InsertSetsTheThreeBits :
    BitVec.extractLsb' 0 32 (0x00000400000020000000100000000006 : Command) = 0x00000006 ∧
    (st apple).mem.string 0x2000 = some [0x61, 0x70, 0x70, 0x6C, 0x65] ∧ (1024 : Word) ≠ 0 ∧ (0x1000 : Addr) ≠ 0 ∧
    byteAddr 0x1000 (hash1 [0x61, 0x70, 0x70, 0x6C, 0x65] % 1024) = some 0x1046 ∧
    byteAddr 0x1000 (hash2 [0x61, 0x70, 0x70, 0x6C, 0x65] % 1024) = some 0x104B ∧
    byteAddr 0x1000 (hash3 [0x61, 0x70, 0x70, 0x6C, 0x65] % 1024) = some 0x1076 ∧ (st apple).mem.wf ∧
    zeroed (st apple).mem 0x1000 1024 :=
  ⟨by decide, by decide, by decide, by decide, by decide, by decide, by decide, by decide,
    zeroed_of_above (m := apple) (by decide)⟩

theorem witness_CheckReadsTheThreeBits :
    (BitVec.extractLsb' 0 32 (0x00000400000020000000000000000007 : Command) = 0x00000007 ∧
      (st ca).mem.string 0x2008 = some [0x63, 0x61] ∧ (1024 : Word) ≠ 0 ∧ (0x1000 : Addr) ≠ 0 ∧
      byteAddr 0x1000 (hash1 [0x63, 0x61] % 1024) = some 0x106D ∧
      byteAddr 0x1000 (hash2 [0x63, 0x61] % 1024) = some 0x1017 ∧
      byteAddr 0x1000 (hash3 [0x63, 0x61] % 1024) = some 0x1017) ∧
    (arrayFits 0x1000 1024 ∧ (st apple).mem.terminated 0x2000 ∧ zeroed (st apple).mem 0x1000 1024) ∧
    Memory.string ([(0x1046, 0x80), (0x104B, 0x04), (0x1076, 0x08)] ++ apple) 0x2000 =
      some [0x61, 0x70, 0x70, 0x6C, 0x65] ∧
    Memory.string [(0x2010, 0x62), (0x2011, 0x61), (0x2012, 0x6E), (0x2013, 0x61), (0x2014, 0x6E), (0x2015, 0x61)]
      0x2010 = some [0x62, 0x61, 0x6E, 0x61, 0x6E, 0x61] :=
  ⟨by decide, ⟨by unfold arrayFits; decide, ⟨0x2005, by decide, by decide⟩, zeroed_of_above (m := apple) (by decide)⟩,
    by decide, by decide⟩

theorem witness_CellPastTheTopIsRefused :
    ((0xFFFFFFFF : Addr) ≠ 0 ∧ (8 : Word) < 9 ∧ 2 ^ 32 ≤ (0xFFFFFFFF : Addr).toNat + (8 : Word).toNat / 8) ∧
    ((st apple).mem.string 0x2000 = some [0x61, 0x70, 0x70, 0x6C, 0x65] ∧ (1024 : Word) ≠ 0 ∧
      2 ^ 32 ≤ (0xFFFFFFFF : Addr).toNat + (hash1 [0x61, 0x70, 0x70, 0x6C, 0x65]).toNat % (1024 : Word).toNat / 8) := by
  decide

/-- Between INSERT and CHECK the host writes "le" just above the 1024-bit array at 0x1000. -/
def placeLe : List Event :=
  [.command (asmSetbit 0x1000 0 1024), .write 0x1080 0x6C, .reset, .command 0x00000106, .write 0x1081 0x65]

theorem placeLe_spares : sparesArray 0x1000 1024 placeLe := by
  intro a v h
  simp only [placeLe, List.mem_cons, reduceCtorEq, false_or, Event.write.injEq, List.not_mem_nil, or_false] at h
  rcases h with ⟨rfl, rfl⟩ | ⟨rfl, rfl⟩ <;> decide

theorem witness_NoFalseNegatives :
    (st apple).mem.wf ∧ (0x1000 : Addr) ≠ 0 ∧ (1024 : Word) ≠ 0 ∧ arrayFits 0x1000 1024 ∧
    (st apple).mem.string 0x2003 = some [0x6C, 0x65] ∧
    sparesArray 0x1000 1024 placeLe ∧ inArray 0x1000 1024 0x107F = true ∧
    ∃ t, exec (.insert 0x1000 0x2003 1024) (st apple) = .next t ∧
      nextSat (fun u => decide (u.mem.string 0x1080 = some [0x6C, 0x65])) (runEvents placeLe t) = true :=
  ⟨by decide, by decide, by decide, by unfold arrayFits; decide, by decide, placeLe_spares,
    by decide, exists_next (p := fun t => nextSat (fun u => decide (u.mem.string 0x1080 = some [0x6C, 0x65]))
      (runEvents placeLe t)) (by decide)⟩

theorem witness_FalsePositivesArePartOfTheBehaviour :
    ((0x1000 : Addr) ≠ 0 ∧ (16 : Word) ≠ 0 ∧ (st apple).mem.string 0x2000 = some [0x61, 0x70, 0x70, 0x6C, 0x65] ∧
      byteAddr 0x1000 (hash1 [0x61, 0x70, 0x70, 0x6C, 0x65] % 16) = some 0x1000 ∧
      byteAddr 0x1000 (hash2 [0x61, 0x70, 0x70, 0x6C, 0x65] % 16) = some 0x1001 ∧
      byteAddr 0x1000 (hash3 [0x61, 0x70, 0x70, 0x6C, 0x65] % 16) = some 0x1000) ∧
    (st apple).mem.wf ∧
    ∃ t, exec (.insert 0x80 0x2000 1) (st apple) = .next t ∧ decide (t.mem.string 0x2003 = some [0x6C, 0x65]) = true :=
  ⟨by decide, by decide, exists_next (by decide)⟩

theorem witness_StringOpsNeverReportIndexRange :
    (∃ t, exec (.insert 0x1000 0x2000 1024) (st apple) = .next t ∧ decide (t.responses = [0]) = true) ∧
    (∃ t, exec (.check 0 0x2000 1024) (st apple) = .next t ∧ decide (t.responses = [0xFFFFFFFF00000001]) = true) :=
  ⟨exists_next (by decide), exists_next (by decide)⟩

theorem witness_CapacityZeroHasNoMeaning :
    (st apple).mem.string 0x2000 = some [0x61, 0x70, 0x70, 0x6C, 0x65] ∧
    refuses .capacityZero (exec (.insert 0 0x2000 0) (st apple)) = true ∧
    refuses .capacityZero (exec (.check 0x1000 0x2000 0) (st apple)) = true := by decide

theorem witness_InsertOnlyAdds :
    (st apple).mem.wf ∧ (0x1000 : Addr) ≠ 0 ∧ (st apple).mem.string 0x2000 = some [0x61, 0x70, 0x70, 0x6C, 0x65] ∧
    ∃ t, exec (.insert 0x1000 0x2000 1024) (st apple) = .next t ∧
      decide (t.mem.string 0x2000 = some [0x61, 0x70, 0x70, 0x6C, 0x65] ∧ t.mem.read 0x1046 = 0x80) = true :=
  ⟨by decide, by decide, by decide, exists_next (by decide)⟩

theorem witness_CheckChangesNothing :
    ∃ t, exec (.check 0x1000 0x2000 1024) (st apple) = .next t ∧ decide (t.responses = [0]) = true :=
  exists_next (by decide)

theorem witness_NoCommandClearsABit :
    (st [(0x100, 0x01)]).mem.wf ∧
    ∃ t, exec (.setbit 0x100 7 8) (st [(0x100, 0x01)]) = .next t ∧
      decide ((t.mem.read 0x100).getLsbD 0 = true ∧ Access.write 0x100 0x81 ∈ t.bus) = true :=
  ⟨by decide, exists_next (by decide)⟩

theorem witness_OnlyArrayBitsBelowTheCapacityChange :
    (st [(0x100, 0x01)]).mem.wf ∧
    ∃ t, exec (.setbit 0x100 7 8) (st [(0x100, 0x01)]) = .next t ∧
      decide ((t.mem.read 0x100).getLsbD 7 ≠ ((st [(0x100, 0x01)]).mem.read 0x100).getLsbD 7) = true :=
  ⟨by decide, exists_next (by decide)⟩

theorem witness_FrameOfTheReadingCommands :
    (∃ t, exec (.hash1 0 0x2000 0) (st apple) = .next t ∧ decide (t.bus.length = 6) = true) ∧
    (∃ t, exec (.hash2 0 0x2000 0) (st apple) = .next t ∧ decide (t.bus.length = 6) = true) ∧
    (∃ t, exec (.hash3 0 0x2000 0) (st apple) = .next t ∧ decide (t.bus.length = 6) = true) ∧
    (∃ t, exec (.getbit 0x100 3 8) (st apple) = .next t ∧ decide (t.bus.length = 1) = true) ∧
    (∃ t, exec (.check 0x1000 0x2000 1024) (st apple) = .next t ∧ decide (t.bus.length = 9) = true) :=
  ⟨exists_next (by decide), exists_next (by decide), exists_next (by decide), exists_next (by decide),
    exists_next (by decide)⟩

theorem witness_FrameOfSetbit :
    (∃ t, exec (.setbit 0x100 12 13) (st apple) = .next t ∧ decide (t.mem.read 0x101 = 0x10) = true) ∧
    byteAddr 0x100 12 = some 0x101 ∧
    (∃ t, exec (.setbit 0x100 13 13) (st apple) = .next t ∧ decide (t.responses = [2]) = true) :=
  ⟨exists_next (by decide), by decide, exists_next (by decide)⟩

theorem witness_FrameOfInsert :
    (st ca).mem.string 0x2008 = some [0x63, 0x61] ∧
    (∃ t, exec (.insert 0x1000 0x2008 1024) (st ca) = .next t ∧ decide (t.mem.read 0x1017 = 0x44) = true) ∧
    byteAddr 0x1000 (hash1 [0x63, 0x61] % 1024) = some 0x106D ∧
    byteAddr 0x1000 (hash2 [0x63, 0x61] % 1024) = some 0x1017 ∧
    byteAddr 0x1000 (hash3 [0x63, 0x61] % 1024) = some 0x1017 ∧
    (∃ t, exec (.insert 0 0x2008 1024) (st ca) = .next t ∧ decide (t.mem = ca) = true) :=
  ⟨by decide, exists_next (by decide), by decide, by decide, by decide, exists_next (by decide)⟩

theorem witness_ResultForEveryStatus :
    (∃ t, exec (.getbit 0x100 13 13) (st apple) = .next t ∧ decide (t.responses = [0xFFFFFFFF00000002]) = true) ∧
    (∀ i, decode 0x00000106 ≠ .ok i) :=
  ⟨exists_next (by decide), not_ok (e := .reservedField) (by decide)⟩

theorem witness_EveryCommandEndsUnderTheDuties :
    dutiesMet apple (.hash1 0 0x2000 0) ∧ dutiesMet apple (.hash2 0 0x2000 0) ∧ dutiesMet apple (.hash3 0 0x2000 0) ∧
    dutiesMet apple (.setbit 0x100 13 13) ∧ dutiesMet apple (.getbit 0 0 0) ∧
    dutiesMet apple (.insert 0x1000 0x2000 1) ∧ dutiesMet apple (.check 0 0x2000 0xFFFFFFFF) := by
  have ht : apple.terminated 0x2000 := ⟨0x2005, by decide, by decide⟩
  exact ⟨ht, ht, ht, .inr (by unfold arrayFits; decide), .inl rfl,
    ⟨ht, by decide, .inr (by unfold arrayFits; decide)⟩, ⟨ht, by decide, .inl rfl⟩⟩

theorem witness_AccessesAreInProgramOrder :
    ∃ t, exec (.insert 0x1000 0x2008 1024) (st ca) = .next t ∧ decide (t.bus.length = 9) = true :=
  exists_next (by decide)

theorem witness_MemWriteReplacesOneCell : (st apple).mem.wf ∧ (0xFFFFFFFF : Addr) ≠ 0 := by decide

theorem witness_RaiseRecordsTheFirstError :
    (st apple).work.err = .ok ∧ (raiseErr .nullStorage (st apple)).work.err ≠ .ok := by decide

theorem witness_ErrorPriority :
    (13 : Word) ≤ 13 ∧ ∀ i, decode 0x00000107 ≠ .ok i := ⟨by decide, not_ok (e := .reservedField) (by decide)⟩

theorem witness_StepRunsTheDecodedCommand :
    (stBusy 0x00000008000000070000010000000004 apple [.reset]).engine =
      .busy 0x00000008000000070000010000000004 ∧
    decode 0x00000008000000070000010000000004 = .ok (.setbit 0x100 7 8) ∧
    (stBusy 0x00000008000000070000010000000004 apple [.reset]).undisturbed :=
  ⟨rfl, test_decode_setbit, by simp [State.undisturbed, stBusy, stIn, accept, HostInput.now]⟩

theorem witness_OneCommandInFlight :
    (stIn apple [.command 0x00000107]).engine = .idle ∧
    (stIn apple [.command 0x00000107]).inputs = .command 0x00000107 :: [] ∧
    (∃ t, step (stBusy 0x00000107 apple []) = .next t ∧
      decide (t.responses = (stBusy 0x00000107 apple []).responses ++ [0xFFFFFFFF00000003]) = true) ∧
    (∃ t, step (stBusy 0x00000107 apple [.writeNow 0 1]) = .next t ∧ decide (t.engine = .busy 0x00000107) = true) ∧
    (∃ t, step (stBusy 0x00000107 apple [.resetNow 0]) = .next t ∧
      decide (t.engine = .idle ∧ t.responses = []) = true) :=
  ⟨rfl, rfl, exists_next (by decide), exists_next (by decide), exists_next (by decide)⟩

theorem witness_ResetLeavesMemory :
    (stIn apple [.reset]).engine = .idle ∧ (stIn apple [.reset]).inputs = .reset :: [] ∧
    (stIn apple [.resetNow 3]).engine = .idle ∧ (stIn apple [.resetNow 3]).inputs = .resetNow 3 :: [] :=
  ⟨rfl, rfl, rfl, rfl⟩

theorem witness_ResetAbandonsTheCommandInFlight :
    (stBusy 0x00000400000020080000100000000006 ca [.resetNow 5]).mem.wf ∧
    (stBusy 0x00000400000020080000100000000006 ca [.resetNow 5]).inputs = .resetNow 5 :: [] ∧
    (∃ t, runCommand 0x00000400000020080000100000000006 (stBusy 0x00000400000020080000100000000006 ca []) = .next t ∧
      decide (t.bus.length = 9) = true) ∧
    refuses .capacityZero (runCommand 0x00000000000020080000100000000006
      (stBusy 0x00000000000020080000100000000006 ca [])) = true :=
  ⟨by decide, rfl, exists_next (by decide), by decide⟩

theorem witness_IdleEngineWaitsAndTheHostMayWrite :
    (st apple).ended ∧ (stIn apple [.write 0x1000 0xFF]).mem.wf ∧
    (stIn apple [.write 0x1000 0xFF]).engine = .idle ∧
    (stIn apple [.write 0x1000 0xFF]).inputs = .write 0x1000 0xFF :: [] ∧
    (stIn apple [.writeNow 0xFFFFFFFF 1]).inputs = .writeNow 0xFFFFFFFF 1 :: [] :=
  ⟨⟨rfl, rfl⟩, by decide, rfl, rfl, rfl⟩

/-- Both sides of the array's end: cell 0x101 belongs to the 13-bit array at 0x100, cell 0x102 does not. -/
theorem witness_HostWriteWhileBusy :
    (stBusy (asmSetbit 0x100 12 13) apple [.writeNow 0x101 1]).mem.wf ∧
    (stBusy (asmSetbit 0x100 12 13) apple [.writeNow 0x101 1]).engine = .busy (asmSetbit 0x100 12 13) ∧
    (stBusy (asmSetbit 0x100 12 13) apple [.writeNow 0x101 1]).inputs = .writeNow 0x101 1 :: [] ∧
    inUse (asmSetbit 0x100 12 13) apple 0x101 = true ∧ inUse (asmSetbit 0x100 12 13) apple 0x102 = false ∧
    inUse (asmHash1 0x2000) apple 0x2005 = true ∧ inUse (asmHash1 0x2000) apple 0x2006 = false := by decide

/-- INSERT, a host write, RESET, an illegal descriptor, CHECK. -/
def fiveEvents : List Event :=
  [.command (asmInsert 0x80 0x2000 1), .write 0x2003 0x6D, .reset, .command 0x00000106, .command (asmCheck 0x80 0x2003 1)]

theorem witness_RunsExecuteTheCommandsInOrder :
    (stIn apple (fiveEvents.map Event.input)).engine = .idle ∧
    (stIn apple (fiveEvents.map Event.input)).inputs = fiveEvents.map Event.input ∧
    ∃ t, runEvents fiveEvents (stIn apple (fiveEvents.map Event.input)) = .next t ∧
      decide (t.responses = [0, 0xFFFFFFFF00000003, 0x0000000100000000]) = true := ⟨rfl, rfl, exists_next (by decide)⟩

theorem witness_EveryStepKeepsTheInvariant :
    Inv (stBusy 0x00000008000000070000010000000004 apple []) ∧
    ∃ t, step (stBusy 0x00000008000000070000010000000004 apple []) = .next t ∧ decide (t.responses = [0]) = true :=
  ⟨⟨by decide, by simp [stBusy, stIn, accept, State.reset]⟩, exists_next (by decide)⟩

end Sys2Proof.Tests
end

section
/-! SUPPORT. What a command does, as a function of the command and of memory alone (00_scope.md R14;
10_state.md R21), and the obligations on how a command runs. -/

namespace Sys2Proof.Machine

/-! ## The effect of a command -/

/-- What a completed command leaves: memory, the accesses made, and the two halves of its response. -/
structure Effect where
  mem : Memory
  made : List Access
  err : Err
  result : Word

/-- The outcome at `s` of a command with the given effect. -/
def outcomeOf (s : State) : Except Refusal Effect → Outcome
  | .ok f => .next (completed f.mem f.made f.err f.result s)
  | .error r => .refused r

/-- The effect of HASH1, HASH2 and HASH3, whose answer is `hash` (40_hash_bank.md R88 to R90). -/
def hashEffect (hash : List Byte → Word) (strp : Addr) (m : Memory) : Except Refusal Effect :=
  match m.string strp with
  | none => .error .stringUnterminated
  | some bs => .ok ⟨m, stringReads strp bs, .ok, hash bs⟩

/-- What a command does at the cell of `index`, refused where that cell lies past the top
(20_memory.md R51). -/
def atCell (array : Addr) (index : Word) (cont : Addr → Except Refusal Effect) : Except Refusal Effect :=
  match byteAddr array index with
  | none => .error .arrayPastTop
  | some a => cont a

/-- The effect of SETBIT (41_bit_primitives.md R104). -/
def setbitEffect (array : Addr) (index nbits : Word) (m : Memory) : Except Refusal Effect :=
  if array = Config.null then .ok ⟨m, [], .nullStorage, 0⟩
  else if nbits ≤ index then .ok ⟨m, [], .indexRange, 0⟩
  else atCell array index fun a => .ok ⟨m.setBitIn a index, setAccesses m a index, .ok, 0⟩

/-- The effect of GETBIT (41_bit_primitives.md R105). -/
def getbitEffect (array : Addr) (index nbits : Word) (m : Memory) : Except Refusal Effect :=
  if array = Config.null then .ok ⟨m, [], .nullStorage, Config.sentinel⟩
  else if nbits ≤ index then .ok ⟨m, [], .indexRange, Config.sentinel⟩
  else atCell array index fun a => .ok ⟨m, [.read a (m.read a)], .ok, m.bitIn a index⟩

/-- The effect of INSERT once its string has been read by `reads` and reduced to three indices below
the capacity (42_string_ops.md R121). -/
def insertAtEffect (array : Addr) (i1 i2 i3 : Word) (reads : List Access) (m : Memory) :
    Except Refusal Effect :=
  if array = Config.null then .ok ⟨m, reads, .nullStorage, 0⟩
  else atCell array i1 fun a1 => atCell array i2 fun a2 => atCell array i3 fun a3 =>
    .ok ⟨((m.setBitIn a1 i1).setBitIn a2 i2).setBitIn a3 i3,
      reads ++ setAccesses m a1 i1 ++ setAccesses (m.setBitIn a1 i1) a2 i2 ++
        setAccesses ((m.setBitIn a1 i1).setBitIn a2 i2) a3 i3, .ok, 0⟩

/-- The effect of CHECK once its string has been read by `reads` and reduced to three indices below
the capacity (42_string_ops.md R122). -/
def checkAtEffect (array : Addr) (i1 i2 i3 : Word) (reads : List Access) (m : Memory) :
    Except Refusal Effect :=
  if array = Config.null then .ok ⟨m, reads, .nullStorage, Config.sentinel⟩
  else atCell array i1 fun a1 => atCell array i2 fun a2 => atCell array i3 fun a3 =>
    .ok ⟨m, reads ++ [.read a1 (m.read a1), .read a2 (m.read a2), .read a3 (m.read a3)], .ok,
      checkResult .ok (m.bitIn a1 i1) (m.bitIn a2 i2) (m.bitIn a3 i3)⟩

/-- The effect of a string operation (42_string_ops.md R120, R126): `cont` says what it does at the
three indices once the string has been read. -/
def stringOpEffect (cont : Word → Word → Word → List Access → Memory → Except Refusal Effect)
    (strp : Addr) (nbits : Word) (m : Memory) : Except Refusal Effect :=
  match m.string strp with
  | none => .error .stringUnterminated
  | some bs =>
    if nbits = 0 then .error .capacityZero
    else cont (hash1 bs % nbits) (hash2 bs % nbits) (hash3 bs % nbits) (stringReads strp bs) m

/-- The effect of a command on a memory, or why the command has no meaning there. -/
def commandEffect : Instr → Memory → Except Refusal Effect
  | .hash1 _ strp _ => hashEffect hash1 strp
  | .hash2 _ strp _ => hashEffect hash2 strp
  | .hash3 _ strp _ => hashEffect hash3 strp
  | .setbit array index nbits => setbitEffect array index nbits
  | .getbit array index nbits => getbitEffect array index nbits
  | .insert array strp nbits => stringOpEffect (insertAtEffect array) strp nbits
  | .check array strp nbits => stringOpEffect (checkAtEffect array) strp nbits

/-! ## How far a command has come -/

/-- The command begun at `s` has come to `t`: it has left memory `m`, made the accesses `made` and
recorded the error `e`, and nothing of `s` outside the working registers has changed otherwise. -/
structure Reached (s : State) (m : Memory) (made : List Access) (e : Err) (t : State) : Prop where
  mem : t.mem = m
  bus : t.bus = s.bus ++ made
  err : t.work.err = e
  inputs : t.inputs = s.inputs
  responses : t.responses = s.responses
  draws : t.draws = s.draws

namespace Reached

variable {s t : State} {m : Memory} {made : List Access} {e : Err}

theorem start (s : State) : Reached s s.mem [] .ok (setErr .ok s) :=
  ⟨rfl, (List.append_nil _).symm, rfl, rfl, rfl, rfl⟩

theorem string (h : Reached s m made e t) (p : Addr) (bs : List Byte) :
    Reached s m (made ++ stringReads p bs) e (afterString p bs t) :=
  ⟨h.mem, by simp [afterString, h.bus], h.err, h.inputs, h.responses, h.draws⟩

theorem indices (h : Reached s m made e t) (p : Addr) (bs : List Byte) (n : Word) :
    Reached s m (made ++ stringReads p bs) e (afterIndices p bs n t) :=
  have ⟨hmem, hbus, herr, hin, hrsp, hdraws⟩ := h.string p bs
  ⟨hmem, hbus, herr, hin, hrsp, hdraws⟩

theorem raise (h : Reached s m made e t) (e' : Err) :
    Reached s m made (if e = .ok then e' else e) (raiseErr e' t) :=
  ⟨by simp [h.mem], by simp [h.bus], by simp [h.err], by simp [h.inputs], by simp [h.responses],
    by simp [h.draws]⟩

theorem setBit (h : Reached s m made e t) (a : Addr) (i : Word) :
    Reached s (m.setBitIn a i) (made ++ setAccesses m a i) e (afterSetBit a i t) :=
  ⟨by simp [afterSetBit, h.mem], by simp [afterSetBit, h.bus, h.mem], h.err, h.inputs, h.responses,
    h.draws⟩

theorem getBit (h : Reached s m made e t) (a : Addr) (i : Word) :
    Reached s m (made ++ [.read a (m.read a)]) e (afterGetBit a i t) :=
  ⟨h.mem, by simp [afterGetBit, h.bus, h.mem], h.err, h.inputs, h.responses, h.draws⟩

/-- A response ends the command with the effect it has reached. -/
theorem respond (h : Reached s m made e t) (r : Word) :
    finish (pure (respond t.work.err r t)) = outcomeOf s (.ok ⟨m, made, e, r⟩) := by
  rw [respond_eq_completed _ r made h.bus h.inputs h.responses h.draws, h.mem, h.err]
  rfl

end Reached

/-! ## Running a command written in pseudocode steps -/

theorem finish_bind_ok {α : Type} (x : α) (k : α → Except Refusal State) :
    finish (.ok x >>= k) = finish (k x) := rfl

/-- A command that only reads a string and answers `hash` of it. -/
theorem finish_strBytes {s : State} {strp : Addr} {hash : List Byte → Word}
    {k : List Byte × State → Except Refusal State}
    (hk : ∀ bs, k (bs, afterString strp bs s) =
      .ok (completed s.mem (stringReads strp bs) .ok (hash bs) s)) :
    finish (strBytes strp s >>= k) = outcomeOf s (hashEffect hash strp s.mem) := by
  unfold hashEffect
  rw [strBytes_eq]
  cases s.mem.string strp with
  | none => rfl
  | some bs => exact congrArg finish (hk bs)

/-- A command that forms three indices and then goes on as `cont` says. -/
theorem finish_threeIndices {s : State} {strp : Addr} {nbits : Word}
    {cont : Word → Word → Word → List Access → Memory → Except Refusal Effect}
    {k : State → Except Refusal State}
    (hk : ∀ bs t, nbits ≠ 0 → Reached s s.mem (stringReads strp bs) .ok t →
      t.work.idx1 = hash1 bs % nbits → t.work.idx2 = hash2 bs % nbits → t.work.idx3 = hash3 bs % nbits →
      finish (k t) = outcomeOf s (cont (hash1 bs % nbits) (hash2 bs % nbits) (hash3 bs % nbits)
        (stringReads strp bs) s.mem)) :
    finish (threeIndices strp nbits (setErr .ok s) >>= k) =
      outcomeOf s (stringOpEffect cont strp nbits s.mem) := by
  unfold stringOpEffect
  rw [threeIndices_eq, setErr_mem]
  cases s.mem.string strp with
  | none => rfl
  | some bs =>
    by_cases hn : nbits = 0
    · simp only [if_pos hn]; rfl
    · simp only [if_neg hn]
      exact hk bs _ hn ((Reached.start s).indices strp bs nbits) rfl rfl rfl

/-- A command that sets a bit below the capacity of an array that is there, and then goes on. -/
theorem finish_setBit {s t : State} {array : Addr} {index n : Word}
    {cont : Addr → Except Refusal Effect} {k : State → Except Refusal State}
    (ha : array ≠ Config.null) (hi : ¬ n ≤ index)
    (hk : ∀ a, finish (k (afterSetBit a index t)) = outcomeOf s (cont a)) :
    finish (setBit array index n t >>= k) = outcomeOf s (atCell array index cont) := by
  unfold atCell
  rw [setBit_eq, if_neg ha, if_neg hi]
  cases byteAddr array index with
  | none => rfl
  | some a => exact hk a

/-- A command that reads a bit below the capacity of an array that is there, and then goes on. -/
theorem finish_getBit {s t : State} {array : Addr} {index n : Word}
    {cont : Addr → Except Refusal Effect} {k : Word × State → Except Refusal State}
    (ha : array ≠ Config.null) (hi : ¬ n ≤ index)
    (hk : ∀ a, finish (k (t.mem.bitIn a index, afterGetBit a index t)) = outcomeOf s (cont a)) :
    finish (getBit array index n t >>= k) = outcomeOf s (atCell array index cont) := by
  unfold atCell
  rw [getBit_eq, if_neg ha, if_neg hi]
  cases byteAddr array index with
  | none => rfl
  | some a => exact hk a

/-! ## Each command has its effect -/

theorem execHash1_eq (array strp nbits : Word) (s : State) :
    execHash1 array strp nbits s = outcomeOf s (hashEffect hash1 strp s.mem) :=
  finish_strBytes fun _ => rfl

theorem execHash2_eq (array strp nbits : Word) (s : State) :
    execHash2 array strp nbits s = outcomeOf s (hashEffect hash2 strp s.mem) :=
  finish_strBytes fun _ => rfl

theorem execHash3_eq (array strp nbits : Word) (s : State) :
    execHash3 array strp nbits s = outcomeOf s (hashEffect hash3 strp s.mem) :=
  finish_strBytes fun _ => rfl

theorem execSetbit_eq (array index nbits : Word) (s : State) :
    execSetbit array index nbits s = outcomeOf s (setbitEffect array index nbits s.mem) := by
  have h := Reached.start s
  unfold execSetbit setbitEffect
  by_cases ha : array = Config.null
  · simp only [setBit_eq, if_pos ha, finish_bind_ok]
    exact (h.raise _).respond _
  by_cases hi : nbits ≤ index
  · simp only [setBit_eq, if_neg ha, if_pos hi, finish_bind_ok]
    exact (h.raise _).respond _
  rw [if_neg ha, if_neg hi]
  exact finish_setBit ha hi fun a => (h.setBit a index).respond _

theorem execGetbit_eq (array index nbits : Word) (s : State) :
    execGetbit array index nbits s = outcomeOf s (getbitEffect array index nbits s.mem) := by
  have h := Reached.start s
  unfold execGetbit getbitEffect
  by_cases ha : array = Config.null
  · simp only [getBit_eq, if_pos ha, finish_bind_ok]
    exact (h.raise _).respond _
  by_cases hi : nbits ≤ index
  · simp only [getBit_eq, if_neg ha, if_pos hi, finish_bind_ok]
    exact (h.raise _).respond _
  rw [if_neg ha, if_neg hi]
  exact finish_getBit ha hi fun a => (h.getBit a index).respond _

theorem execInsert_eq (array strp nbits : Word) (s : State) :
    execInsert array strp nbits s =
      outcomeOf s (stringOpEffect (insertAtEffect array) strp nbits s.mem) := by
  refine finish_threeIndices fun bs t hn h h1 h2 h3 => ?_
  unfold insertAtEffect
  by_cases ha : array = Config.null
  · simp only [setBit_eq, if_pos ha, finish_bind_ok]
    exact (((h.raise _).raise _).raise _).respond _
  have hi (x : Word) : ¬ nbits ≤ x % nbits := BitVec.not_le.mpr (mod_lt_of_ne hn x)
  rw [if_neg ha, ← h1, ← h2, ← h3]
  refine finish_setBit ha (h1 ▸ hi _) fun a1 => finish_setBit ha (h2 ▸ hi _) fun a2 =>
    finish_setBit ha (h3 ▸ hi _) fun a3 => ?_
  exact (((h.setBit a1 _).setBit a2 _).setBit a3 _).respond _

theorem execCheck_eq (array strp nbits : Word) (s : State) :
    execCheck array strp nbits s =
      outcomeOf s (stringOpEffect (checkAtEffect array) strp nbits s.mem) := by
  refine finish_threeIndices fun bs t hn h h1 h2 h3 => ?_
  unfold checkAtEffect
  by_cases ha : array = Config.null
  · simp only [getBit_eq, if_pos ha, finish_bind_ok]
    have hr := ((h.raise .nullStorage).raise .nullStorage).raise .nullStorage
    rw [hr.respond, hr.err]
    rfl
  have hi (x : Word) : ¬ nbits ≤ x % nbits := BitVec.not_le.mpr (mod_lt_of_ne hn x)
  rw [if_neg ha, ← h1, ← h2, ← h3]
  refine finish_getBit ha (h1 ▸ hi _) fun a1 => finish_getBit ha (h2 ▸ hi _) fun a2 =>
    finish_getBit ha (h3 ▸ hi _) fun a3 => ?_
  refine ((((h.getBit a1 _).getBit a2 _).getBit a3 _).respond _).trans ?_
  simp [afterGetBit, h.mem, h.err]

/-- What a command does is its effect on memory: nothing else of the state plays a part. -/
theorem exec_eq_outcomeOf (i : Instr) (s : State) : exec i s = outcomeOf s (commandEffect i s.mem) := by
  cases i with
  | hash1 array strp nbits => exact execHash1_eq array strp nbits s
  | hash2 array strp nbits => exact execHash2_eq array strp nbits s
  | hash3 array strp nbits => exact execHash3_eq array strp nbits s
  | setbit array index nbits => exact execSetbit_eq array index nbits s
  | getbit array index nbits => exact execGetbit_eq array index nbits s
  | insert array strp nbits => exact execInsert_eq array strp nbits s
  | check array strp nbits => exact execCheck_eq array strp nbits s

/-! ## The step of the busy engine -/

/-- A legal descriptor runs as the command it decodes to. -/
theorem runCommand_of_decode_ok {c : Command} {i : Instr} (h : decode c = .ok i) (s : State) :
    runCommand c s = exec i s := by
  unfold runCommand
  rw [h]

/-- With no host input that comes first, the busy engine runs the command in flight. -/
theorem step_of_busy_of_undisturbed {s : State} {c : Command} (hb : s.engine = .busy c)
    (hu : s.undisturbed) : step s = runCommand c s := by
  have hstep : step s = busyStep c s := by unfold step engineStep; rw [hb]
  rw [hstep]
  unfold busyStep
  split
  · next done rest hn => simp [State.undisturbed, hn, HostInput.now] at hu
  · next a v rest hn => simp [State.undisturbed, hn, HostInput.now] at hu
  all_goals rfl

/-! ## The obligations -/

/-- Settles O43: the effect of the command on `s.mem` says which of the two cases holds. -/
theorem commandsKeepNoState : Obligations.CommandsKeepNoState := by
  intro i s
  cases h : commandEffect i s.mem with
  | ok f =>
    refine .inl ⟨f.mem, f.made, f.err, f.result, fun s' hm => ?_⟩
    rw [exec_eq_outcomeOf, hm, h, outcomeOf]
  | error r =>
    refine .inr ⟨r, fun s' hm => ?_⟩
    rw [exec_eq_outcomeOf, hm, h, outcomeOf]

/-- Settles O49: an undisturbed step runs the command in flight, and a legal descriptor runs as the
command it decodes to. -/
theorem stepRunsTheDecodedCommand : Obligations.StepRunsTheDecodedCommand := by
  intro s c i hb hd hu
  rw [step_of_busy_of_undisturbed hb hu, runCommand_of_decode_ok hd]

end Sys2Proof.Machine
end

section
/-! SUPPORT. What the engine does with each host input and each command in flight (10_state.md R28;
70_reset_and_hazards.md R160, R173), and the obligations on the state, on RESET and on runs. -/

namespace Sys2Proof.Machine

/-! ## The effect of a descriptor, legal or not -/

/-- The effect of a descriptor on a memory: that of the command it decodes to, and for an illegal
descriptor only the response (30_encoding.md R64). -/
def descriptorEffect (c : Command) (m : Memory) : Except Refusal Effect :=
  match decode c with
  | .ok i => commandEffect i m
  | .error _ => .ok ⟨m, [], .illegalCmd, Config.sentinel⟩

/-- The answer to an illegal descriptor is a completed command that made no access. -/
theorem answerIllegal_eq_completed (s : State) :
    answerIllegal s = completed s.mem [] .illegalCmd Config.sentinel s :=
  respond_eq_completed .illegalCmd Config.sentinel [] (by simp) rfl rfl rfl

/-- What the command in flight does is the effect of its descriptor on memory. -/
theorem runCommand_eq_outcomeOf (c : Command) (s : State) :
    runCommand c s = outcomeOf s (descriptorEffect c s.mem) := by
  unfold runCommand descriptorEffect
  cases decode c with
  | ok i => exact exec_eq_outcomeOf i s
  | error e => exact congrArg _ (answerIllegal_eq_completed s)

/-- A command that ends with a next state has completed with the effect of its descriptor. -/
theorem runCommand_eq_next {c : Command} {s t : State} :
    runCommand c s = .next t ↔
      ∃ f, descriptorEffect c s.mem = .ok f ∧ completed f.mem f.made f.err f.result s = t := by
  rw [runCommand_eq_outcomeOf]
  cases descriptorEffect c s.mem <;> simp [outcomeOf]

/-! ## The step of the idle engine -/

/-- What a host input does at the `IDLE` engine, where no input has to wait. -/
def HostInput.atIdle : HostInput → State → State
  | .command c => accept c
  | .write a v => hostWrite a v
  | .reset => applyReset
  | .writeNow a v => hostWrite a v
  | .resetNow _ => applyReset

/-- The `IDLE` engine takes the next host input. -/
theorem step_of_idle {s : State} {x : HostInput} {rest : List HostInput} (hi : s.engine = .idle)
    (hn : s.inputs = x :: rest) : step s = .next (x.atIdle { s with inputs := rest }) := by
  have hstep : step s = idleStep s := by unfold step engineStep; rw [hi]
  rw [hstep]
  unfold idleStep
  rw [hn]
  cases x <;> rfl

/-! ## What a step does to the command in flight and to the responses -/

/-- A step of the `BUSY` engine keeps the command in flight, abandons it or ends it with a response. -/
theorem step_of_busy_cases {s t : State} {c : Command} (hb : s.engine = .busy c)
    (h : step s = .next t) :
    (t.engine = .busy c ∧ t.responses = s.responses) ∨
    (t.engine = .idle ∧ (t.responses = s.responses ∨ ∃ r, t.responses = s.responses ++ [r])) := by
  cases step_cases h with
  | waits hi => simp [hb] at hi
  | accepts _ _ hi => simp [hb] at hi
  | resets _ _ hi => simp [hb] at hi
  | writes _ _ _ _ _ ht => subst ht; exact .inl ⟨hb, rfl⟩
  | abandons _ _ _ _ _ _ _ ht => subst ht; exact .inr ⟨rfl, .inl rfl⟩
  | runs _ _ hr =>
    obtain ⟨f, -, rfl⟩ := runCommand_eq_next.mp hr
    exact .inr ⟨rfl, .inr ⟨_, rfl⟩⟩

/-- Only a command that runs to its end delivers a response. -/
theorem step_delivers {s t : State} {r : Response} (h : step s = .next t)
    (hr : t.responses = s.responses ++ [r]) :
    ∃ c, s.engine = .busy c ∧ t.engine = .idle ∧ t.inputs = s.inputs := by
  cases step_cases h with
  | waits _ _ ht => subst ht; simp at hr
  | accepts _ _ _ _ ht => subst ht; simp at hr
  | resets _ _ _ _ ht => subst ht; simp at hr
  | writes _ _ _ _ _ ht => subst ht; simp at hr
  | abandons _ _ _ _ _ _ _ ht => subst ht; simp at hr
  | runs c hb hc =>
    obtain ⟨f, -, rfl⟩ := runCommand_eq_next.mp hc
    exact ⟨c, hb, rfl, rfl⟩

/-! ## Runs

`runEvents` leaves the inputs of the state where they are, and the machine consumes them, so the two
are related by what can be observed of a run and not by equality. -/

/-- What can be observed of a run (70_reset_and_hazards.md R173) is the same in both states. -/
structure SameObserved (s u : State) : Prop where
  mem : u.mem = s.mem
  responses : u.responses = s.responses
  bus : u.bus = s.bus

theorem SameObserved.refl (s : State) : SameObserved s s := ⟨rfl, rfl, rfl⟩

theorem SameObserved.accept {s u : State} (h : SameObserved s u) (c : Command) :
    SameObserved s (accept c u) :=
  ⟨h.mem, h.responses, h.bus⟩

theorem SameObserved.applyReset {s u : State} (h : SameObserved s u) :
    SameObserved (applyReset s) (applyReset u) :=
  ⟨h.mem, h.responses, h.bus⟩

theorem SameObserved.hostWrite {s u : State} (h : SameObserved s u) (a : Addr) (v : Byte) :
    SameObserved (hostWrite a v s) (hostWrite a v u) :=
  ⟨by simp [h.mem], h.responses, h.bus⟩

theorem SameObserved.completed {s u : State} (h : SameObserved s u) (m : Memory) (l : List Access)
    (e : Err) (r : Word) : SameObserved (completed m l e r s) (completed m l e r u) :=
  ⟨rfl, by simp [h.responses], by simp [h.bus]⟩

/-- A command completes alike at two states that look alike. -/
theorem SameObserved.runCommand {s u t : State} {c : Command} (h : SameObserved s u)
    (hr : runCommand c s = .next t) :
    ∃ v, runCommand c u = .next v ∧ SameObserved t v ∧ v.engine = .idle ∧
      v.inputs = u.inputs := by
  obtain ⟨f, hf, rfl⟩ := runCommand_eq_next.mp hr
  exact ⟨_, runCommand_eq_next.mpr ⟨f, h.mem ▸ hf, rfl⟩, h.completed .., rfl, rfl⟩

/-- The host input of an event waits for `IDLE`. -/
theorem Event.input_now (e : Event) : e.input.now = false := by cases e <;> rfl

/-- An accepted command is not disturbed by the events after it. -/
theorem undisturbed_of_inputs {s : State} {es : List Event} (h : s.inputs = es.map Event.input) :
    s.undisturbed := by
  intro x hx
  have hmem : x ∈ es.map Event.input := h ▸ List.mem_of_mem_head? hx
  obtain ⟨e, -, rfl⟩ := List.mem_map.mp hmem
  exact e.input_now

/-- The steps of one event bring about its effect, and take its input off the list. -/
theorem steps_event {s u t : State} {e : Event} {es : List Event} (h : SameObserved s u)
    (hi : u.engine = .idle) (hn : u.inputs = e.input :: es.map Event.input)
    (he : e.effect s = .next t) :
    ∃ v, steps e.stepCount u = .next v ∧ SameObserved t v ∧ v.engine = .idle ∧
      v.inputs = es.map Event.input := by
  have hfirst := step_of_idle hi hn
  have hu : SameObserved s { u with inputs := es.map Event.input } := ⟨h.mem, h.responses, h.bus⟩
  cases e with
  | command c =>
    obtain ⟨v, hv, hsame, hidle, hrest⟩ := (hu.accept c).runCommand he
    have hsecond := step_of_busy_of_undisturbed (accept_engine c { u with inputs := es.map Event.input })
      (undisturbed_of_inputs (accept_inputs ..))
    exact ⟨v, (steps_succ hfirst).trans (steps_succ (hsecond.trans hv)), hsame, hidle, hrest⟩
  | write a v =>
    cases he
    exact ⟨_, steps_succ hfirst, hu.hostWrite a v, hi, rfl⟩
  | reset =>
    cases he
    exact ⟨_, steps_succ hfirst, hu.applyReset, rfl, rfl⟩

/-- Events that complete begin with one that completes. -/
theorem runEvents_cons_eq_next {e : Event} {es : List Event} {s t : State} :
    runEvents (e :: es) s = .next t ↔ ∃ s', e.effect s = .next s' ∧ runEvents es s' = .next t := by
  simp only [runEvents]
  cases e.effect s <;> simp

/-- The machine simulates its events: from a state that looks like the one they start at it reaches
one that looks like the one they end at. -/
theorem steps_runEvents {es : List Event} {s u t : State} (h : SameObserved s u)
    (hi : u.engine = .idle) (hn : u.inputs = es.map Event.input) (hr : runEvents es s = .next t) :
    ∃ v, steps (es.map Event.stepCount).sum u = .next v ∧ SameObserved t v ∧ v.ended := by
  induction es generalizing s u with
  | nil =>
    cases hr
    exact ⟨u, rfl, h, hi, hn⟩
  | cons e es ih =>
    obtain ⟨s', he, hes⟩ := runEvents_cons_eq_next.mp hr
    obtain ⟨u', hu, hsame, hidle, hrest⟩ := steps_event h hi hn he
    obtain ⟨v, hv, hend⟩ := ih hsame hidle hrest hes
    exact ⟨v, by rw [List.map_cons, List.sum_cons, steps_add _ _ hu, hv], hend⟩

/-! ## The obligations -/

/-- Settles O56: the simulation of the events by the machine, begun at one and the same state. -/
theorem runsExecuteTheCommandsInOrder : Obligations.RunsExecuteTheCommandsInOrder := by
  intro es s t hi hn hr
  obtain ⟨u, hu, hsame, hend⟩ := steps_runEvents (.refl s) hi hn hr
  exact ⟨u, hu, hsame.mem, hsame.responses, hsame.bus, hend⟩

/-- Settles O50: acceptance is the step of the `IDLE` engine, and the cases of a step say the rest. -/
theorem oneCommandInFlight : Obligations.OneCommandInFlight := by
  refine ⟨fun s c rest hi hn => ?_, fun s t c => step_of_busy_cases, fun s t r => step_delivers⟩
  exact ⟨_, step_of_idle hi hn, rfl, rfl, rfl, rfl, rfl, rfl, rfl, rfl, rfl, rfl⟩

/-- Settles O51: at the `IDLE` engine both RESET inputs are `applyReset`. -/
theorem resetLeavesMemory : Obligations.ResetLeavesMemory := by
  rintro s rest hi (hn | ⟨done, hn⟩) <;>
    exact ⟨_, step_of_idle hi hn, rfl, rfl, rfl, rfl, rfl⟩

/-- Settles O53. -/
theorem stateAfterReset : Obligations.StateAfterReset := ⟨rfl, rfl, rfl, rfl⟩

/-- Settles O57: the memory at reset lists no cell, and no response has been delivered. -/
theorem invariantAtReset : Obligations.InvariantAtReset :=
  ⟨⟨List.Pairwise.nil, List.forall_mem_nil _⟩, List.forall_mem_nil _⟩

end Sys2Proof.Machine
end

section
/-! SUPPORT. The accesses a command makes and the bits it can change (20_memory.md R41 to R52), the
responses it can give, and the obligations on memory. -/

namespace Sys2Proof.Machine

/-! ## When the effect of a command is there -/

/-- A command that ends with a next state has completed with its effect. -/
theorem exec_eq_next {i : Instr} {s t : State} :
    exec i s = .next t ↔
      ∃ f, commandEffect i s.mem = .ok f ∧ completed f.mem f.made f.err f.result s = t := by
  rw [exec_eq_outcomeOf]
  cases commandEffect i s.mem <;> simp [outcomeOf]

theorem exec_eq_refused {i : Instr} {s : State} {r : Refusal} :
    exec i s = .refused r ↔ commandEffect i s.mem = .error r := by
  rw [exec_eq_outcomeOf]
  cases commandEffect i s.mem <;> simp [outcomeOf]

section
variable {array strp : Addr} {index nbits : Word} {m : Memory} {f : Effect} {hash : List Byte → Word}

theorem atCell_of_byteAddr {a : Addr} {cont : Addr → Except Refusal Effect}
    (h : byteAddr array index = some a) : atCell array index cont = cont a := by
  rw [atCell, h]

theorem atCell_eq_ok {cont : Addr → Except Refusal Effect} :
    atCell array index cont = .ok f ↔ ∃ a, byteAddr array index = some a ∧ cont a = .ok f := by
  unfold atCell
  cases byteAddr array index <;> simp

/-- A command is refused at a cell past the top, and also where it would be refused for that reason
later on. -/
theorem atCell_pastTop {cont : Addr → Except Refusal Effect}
    (h : byteAddr array index = none ∨ ∀ a, cont a = .error .arrayPastTop) :
    atCell array index cont = .error .arrayPastTop := by
  unfold atCell
  cases hb : byteAddr array index with
  | none => rfl
  | some a => exact h.resolve_left (by simp [hb]) a

/-- A command that addresses three cells is refused when one of them lies past the top. -/
theorem atCell_three_pastTop {i1 i2 i3 : Word} {cont : Addr → Addr → Addr → Except Refusal Effect}
    (h : byteAddr array i1 = none ∨ byteAddr array i2 = none ∨ byteAddr array i3 = none) :
    (atCell array i1 fun a1 => atCell array i2 fun a2 => atCell array i3 fun a3 => cont a1 a2 a3) =
      .error .arrayPastTop := by
  obtain h1 | h2 | h3 := h
  · exact atCell_pastTop (.inl h1)
  · exact atCell_pastTop (.inr fun _ => atCell_pastTop (.inl h2))
  · exact atCell_pastTop (.inr fun _ => atCell_pastTop (.inr fun _ => atCell_pastTop (.inl h3)))

theorem hashEffect_eq_ok :
    hashEffect hash strp m = .ok f ↔
      ∃ bs, m.string strp = some bs ∧ f = ⟨m, stringReads strp bs, .ok, hash bs⟩ := by
  unfold hashEffect
  cases m.string strp <;> simp [eq_comm]

theorem setbitEffect_of_lt (ha : array ≠ Config.null) (hi : index < nbits) :
    setbitEffect array index nbits m =
      atCell array index fun a => .ok ⟨m.setBitIn a index, setAccesses m a index, .ok, 0⟩ := by
  rw [setbitEffect, if_neg ha, if_neg (BitVec.not_le.mpr hi)]

theorem getbitEffect_of_lt (ha : array ≠ Config.null) (hi : index < nbits) :
    getbitEffect array index nbits m =
      atCell array index fun a => .ok ⟨m, [.read a (m.read a)], .ok, m.bitIn a index⟩ := by
  rw [getbitEffect, if_neg ha, if_neg (BitVec.not_le.mpr hi)]

/-- SETBIT sets the bit of an index below the capacity in the cell that `byteAddr` names. -/
theorem exec_setbit_of_byteAddr {a : Addr} (ha : array ≠ Config.null) (hi : index < nbits)
    (hb : byteAddr array index = some a) (s : State) :
    exec (.setbit array index nbits) s =
      .next (completed (s.mem.setBitIn a index) (setAccesses s.mem a index) .ok 0 s) :=
  exec_eq_next.mpr ⟨_, (setbitEffect_of_lt ha hi).trans (atCell_of_byteAddr hb), rfl⟩

/-- GETBIT answers the bit of an index below the capacity from the cell that `byteAddr` names. -/
theorem exec_getbit_of_byteAddr {a : Addr} (ha : array ≠ Config.null) (hi : index < nbits)
    (hb : byteAddr array index = some a) (s : State) :
    exec (.getbit array index nbits) s =
      .next (completed s.mem [.read a (s.mem.read a)] .ok (s.mem.bitIn a index) s) :=
  exec_eq_next.mpr ⟨_, (getbitEffect_of_lt ha hi).trans (atCell_of_byteAddr hb), rfl⟩

section
variable {cont : Word → Word → Word → List Access → Memory → Except Refusal Effect}

theorem stringOpEffect_of_string {bs : List Byte} (hs : m.string strp = some bs) (hn : nbits ≠ 0) :
    stringOpEffect cont strp nbits m =
      cont (hash1 bs % nbits) (hash2 bs % nbits) (hash3 bs % nbits) (stringReads strp bs) m := by
  rw [stringOpEffect, hs]
  exact if_neg hn

theorem stringOpEffect_eq_ok :
    stringOpEffect cont strp nbits m = .ok f ↔
      ∃ bs, m.string strp = some bs ∧ nbits ≠ 0 ∧
        cont (hash1 bs % nbits) (hash2 bs % nbits) (hash3 bs % nbits) (stringReads strp bs) m = .ok f := by
  unfold stringOpEffect
  cases m.string strp with
  | none => simp
  | some bs => by_cases hn : nbits = 0#32 <;> simp [hn]

end
end

/-! ## The accesses of a command -/

/-- The commands that store bits: SETBIT and INSERT (20_memory.md R43). -/
def Stores (i : Instr) : Prop :=
  (∃ array x nbits, i = .setbit array x nbits) ∨ (∃ array p nbits, i = .insert array p nbits)

/-- The command `i` may set the bit of index `j` of its array, which stands in cell `a`. -/
structure MaySet (i : Instr) (a : Addr) (j : Word) : Prop where
  stores : Stores i
  array_ne : i.array ≠ Config.null
  lt : j < i.nbits
  addr : byteAddr i.array j = some a

/-- From memory `m` the command `i` makes accesses of the two kinds there are, reads and the setting
of bits it may set, and leaves the last memory. -/
inductive Performs (i : Instr) : Memory → List Access → Memory → Prop where
  | done (m : Memory) : Performs i m [] m
  | read {m m' : Memory} {l : List Access} (a : Addr) (h : Performs i m l m') :
      Performs i m (.read a (m.read a) :: l) m'
  | set {m m' : Memory} {l : List Access} {a : Addr} {j : Word} (hj : MaySet i a j)
      (h : Performs i (m.setBitIn a j) l m') : Performs i m (setAccesses m a j ++ l) m'

namespace Performs

variable {i : Instr} {m m' m'' : Memory} {l l' : List Access}

theorem append (h : Performs i m l m') (h' : Performs i m' l' m'') : Performs i m (l ++ l') m'' := by
  induction h with
  | done m => exact h'
  | read a _ ih => exact (ih h').read a
  | set hj _ ih => exact List.append_assoc _ _ l' ▸ (ih h').set hj

/-- One more bit is set at the end. -/
theorem thenSet {a : Addr} {j : Word} (h : Performs i m l m') (hj : MaySet i a j) :
    Performs i m (l ++ setAccesses m' a j) (m'.setBitIn a j) :=
  h.append ((done _).set hj)

/-- The string fetch only reads (40_hash_bank.md R81). -/
theorem of_stringWithin {fuel : Nat} {p : Addr} {bs : List Byte}
    (h : m.stringWithin fuel p = some bs) : Performs i m (stringReads p bs) m := by
  induction fuel generalizing p bs with
  | zero => simp [Memory.stringWithin] at h
  | succ fuel ih =>
    by_cases hc : m.read p = 0#8
    · obtain rfl : [] = bs := by simpa [Memory.stringWithin, hc] using h
      rw [stringReads, ← hc]
      exact (done m).read p
    · obtain ⟨cs, hcs, rfl⟩ : ∃ cs, m.stringWithin fuel (p + 1) = some cs ∧ m.read p :: cs = bs := by
        simpa [Memory.stringWithin, hc] using h
      exact (ih hcs).read p

theorem of_string {p : Addr} {bs : List Byte} (h : m.string p = some bs) :
    Performs i m (stringReads p bs) m :=
  of_stringWithin h

/-- Every read gives the last write to its cell. -/
theorem coherent (h : Performs i m l m') : coherent m l := by
  induction h with
  | done m => trivial
  | read a _ ih => exact ⟨rfl, ih⟩
  | set _ _ ih => exact ⟨rfl, ih⟩

/-- The memory left is the memory found with the accesses performed on it. -/
theorem foldl_apply (h : Performs i m l m') : l.foldl Access.apply m = m' := by
  induction h with
  | done m => rfl
  | read a _ ih => exact ih
  | set _ _ ih => exact ih

/-- A bit that is set stays set. -/
theorem mono (h : Performs i m l m') (hm : m.wf) {b : Addr} {k : Nat} (hb : m.bitSet b k) :
    m'.bitSet b k := by
  induction h with
  | done m => exact hb
  | read a _ ih => exact ih hm hb
  | set _ _ ih => exact ih (Memory.setBitIn_wf hm _ _) (Memory.setBitIn_mono hm _ _ _ hb)

/-- What is written keeps the bits that were set at the start. -/
theorem getLsbD_of_write (h : Performs i m l m') (hm : m.wf) {a : Addr} {v : Byte} {k : Nat}
    (hw : .write a v ∈ l) (ha : m.bitSet a k) : v.getLsbD k = true := by
  induction h with
  | done m => simp at hw
  | read b _ ih => exact ih hm (by simpa using hw) ha
  | @set m _ l b j _ _ ih =>
    obtain ⟨rfl, rfl⟩ | hl : (a = b ∧ v = m.read b ||| mask j) ∨ .write a v ∈ l := by
      simpa [setAccesses] using hw
    · rw [or_mask_getLsbD, show (m.read a).getLsbD k = true from ha, Bool.true_or]
    · exact ih (Memory.setBitIn_wf hm _ _) hl (Memory.setBitIn_mono hm _ _ _ ha)

/-- Only a command that stores bits makes a write. -/
theorem stores_of_write (h : Performs i m l m') {a : Addr} {v : Byte} (hw : .write a v ∈ l) :
    Stores i := by
  induction h with
  | done m => simp at hw
  | read b _ ih => exact ih (by simpa using hw)
  | set hj => exact hj.stores

/-- Any other command leaves memory as it is. -/
theorem mem_eq_of_not_stores (h : Performs i m l m') (hi : ¬ Stores i) : m' = m := by
  induction h with
  | done m => rfl
  | read a _ ih => exact ih
  | set hj => exact absurd hj.stores hi

/-- A bit that changed is one the command may set. -/
theorem maySet_of_changed (h : Performs i m l m') (hm : m.wf) {b : Addr} {k : Nat}
    (hb : (m'.read b).getLsbD k ≠ (m.read b).getLsbD k) :
    ∃ j, MaySet i b j ∧ k = j.toNat % 8 := by
  induction h with
  | done m => exact absurd rfl hb
  | read a _ ih => exact ih hm hb
  | @set m m' _ a j hj _ ih =>
    by_cases hset : b = a ∧ k = j.toNat % 8
    · exact ⟨j, hset.1 ▸ hj, hset.2⟩
    · have hkept : ((m.setBitIn a j).read b).getLsbD k = (m.read b).getLsbD k := by
        rw [Memory.setBitIn_getLsbD hm]
        simp [hset]
      exact ih (Memory.setBitIn_wf hm _ _) (hkept ▸ hb)

end Performs

/-! ## What every effect of a command keeps to -/

/-- A response is legal by its error and its result alone. -/
theorem legalResponse_response {e : Err} {r : Word} :
    legalResponse (response e r) ↔
      (e ≠ .ok → r = 0 ∨ r = Config.sentinel) ∧ (e = .illegalCmd → r = Config.sentinel) := by
  have hcode : e.code.toNat < 4 := e.code.isLt
  simp only [legalResponse, statusOf_response, status_toNat, errOf_response, resultOf_response, hcode,
    true_and]

theorem legalResponse_ok (r : Word) : legalResponse (response .ok r) := by
  simp [legalResponse_response]

theorem legalResponse_zero {e : Err} (h : e ≠ .illegalCmd) : legalResponse (response e 0) := by
  simp [legalResponse_response, h]

theorem legalResponse_sentinel (e : Err) : legalResponse (response e Config.sentinel) := by
  simp [legalResponse_response]

/-- The effect `f` on memory `m` is one that the command `i` may have. -/
structure EffectSound (i : Instr) (m : Memory) (f : Effect) : Prop where
  performs : Performs i m f.made f.mem
  legal : legalResponse (response f.err f.result)

section
variable {array strp : Addr} {index nbits i1 i2 i3 : Word} {m : Memory} {f : Effect}
  {hash : List Byte → Word} {reads : List Access}

theorem hashEffect_sound (i : Instr) (h : hashEffect hash strp m = .ok f) : EffectSound i m f := by
  obtain ⟨bs, hs, rfl⟩ := hashEffect_eq_ok.mp h
  exact ⟨.of_string hs, legalResponse_ok _⟩

theorem setbitEffect_sound (h : setbitEffect array index nbits m = .ok f) :
    EffectSound (.setbit array index nbits) m f := by
  unfold setbitEffect at h
  split_ifs at h with ha hi
  · cases h; exact ⟨.done m, legalResponse_zero (by simp)⟩
  · cases h; exact ⟨.done m, legalResponse_zero (by simp)⟩
  · obtain ⟨a, hb, hf⟩ := atCell_eq_ok.mp h
    cases hf
    have hset : MaySet (.setbit array index nbits) a index :=
      ⟨.inl ⟨_, _, _, rfl⟩, ha, BitVec.not_le.mp hi, hb⟩
    exact ⟨(Performs.done m).thenSet hset, legalResponse_ok _⟩

theorem getbitEffect_sound (i : Instr) (h : getbitEffect array index nbits m = .ok f) :
    EffectSound i m f := by
  unfold getbitEffect at h
  split_ifs at h with ha hi
  · cases h; exact ⟨.done m, legalResponse_sentinel _⟩
  · cases h; exact ⟨.done m, legalResponse_sentinel _⟩
  · obtain ⟨a, -, hf⟩ := atCell_eq_ok.mp h
    cases hf
    exact ⟨(Performs.done m).read a, legalResponse_ok _⟩

theorem insertAtEffect_sound
    (hr : Performs (.insert array strp nbits) m reads m) (h1 : i1 < nbits) (h2 : i2 < nbits)
    (h3 : i3 < nbits) (h : insertAtEffect array i1 i2 i3 reads m = .ok f) :
    EffectSound (.insert array strp nbits) m f := by
  unfold insertAtEffect at h
  split_ifs at h with ha
  · cases h; exact ⟨hr, legalResponse_zero (by simp)⟩
  · simp only [atCell_eq_ok] at h
    obtain ⟨a1, hb1, a2, hb2, a3, hb3, hf⟩ := h
    cases hf
    have hset {a : Addr} {j : Word} (hj : j < nbits) (hb : byteAddr array j = some a) :
        MaySet (.insert array strp nbits) a j := ⟨.inr ⟨_, _, _, rfl⟩, ha, hj, hb⟩
    exact ⟨((hr.thenSet (hset h1 hb1)).thenSet (hset h2 hb2)).thenSet (hset h3 hb3), legalResponse_ok _⟩

theorem checkAtEffect_sound {i : Instr} (hr : Performs i m reads m)
    (h : checkAtEffect array i1 i2 i3 reads m = .ok f) : EffectSound i m f := by
  unfold checkAtEffect at h
  split_ifs at h with ha
  · cases h; exact ⟨hr, legalResponse_sentinel _⟩
  · simp only [atCell_eq_ok] at h
    obtain ⟨a1, -, a2, -, a3, -, hf⟩ := h
    cases hf
    exact ⟨hr.append ((((Performs.done m).read a3).read a2).read a1), legalResponse_ok _⟩

end

theorem commandEffect_sound {i : Instr} {m : Memory} {f : Effect} (h : commandEffect i m = .ok f) :
    EffectSound i m f := by
  cases i with
  | hash1 | hash2 | hash3 => exact hashEffect_sound _ h
  | setbit => exact setbitEffect_sound h
  | getbit => exact getbitEffect_sound _ h
  | insert array strp nbits =>
    obtain ⟨bs, hs, hn, hf⟩ := stringOpEffect_eq_ok.mp h
    exact insertAtEffect_sound (.of_string hs) (mod_lt_of_ne hn _) (mod_lt_of_ne hn _)
      (mod_lt_of_ne hn _) hf
  | check array strp nbits =>
    obtain ⟨bs, hs, -, hf⟩ := stringOpEffect_eq_ok.mp h
    exact checkAtEffect_sound (.of_string hs) hf

/-- Everything a command that ends with a next state has done. -/
theorem exec_completed {i : Instr} {s t : State} (h : exec i s = .next t) :
    ∃ f, EffectSound i s.mem f ∧ completed f.mem f.made f.err f.result s = t := by
  obtain ⟨f, hf, ht⟩ := exec_eq_next.mp h
  exact ⟨f, commandEffect_sound hf, ht⟩

/-! ## The invariant -/

theorem Inv.hostWrite {s : State} (h : Inv s) (a : Addr) (v : Byte) : Inv (hostWrite a v s) :=
  ⟨Memory.write_wf h.1 a v, h.2⟩

/-- A command that completes on its accesses with a legal response keeps the invariant. -/
theorem Inv.completed {s : State} (h : Inv s) {m : Memory} {made : List Access} {e : Err} {r : Word}
    (hm : made.foldl Access.apply s.mem = m) (hr : legalResponse (response e r)) :
    Inv (completed m made e r s) := by
  refine ⟨hm ▸ foldl_apply_wf h.1 made, fun x hx => ?_⟩
  obtain hx | rfl : x ∈ s.responses ∨ x = response e r := by simpa using hx
  · exact h.2 x hx
  · exact hr

/-- A command in flight, legal or not, keeps the invariant. -/
theorem Inv.runCommand {s t : State} {c : Command} (h : Inv s) (hr : runCommand c s = .next t) :
    Inv t := by
  unfold Machine.runCommand at hr
  split at hr
  · obtain ⟨f, hf, rfl⟩ := exec_completed hr
    exact h.completed hf.performs.foldl_apply hf.legal
  · cases hr
    rw [answerIllegal_eq_completed]
    exact h.completed rfl (legalResponse_sentinel _)

/-! ## The obligations -/

/-- Settles O58: by the cases of a step. Memory changes by writes alone, and the only response is that
of a command that runs to its end. -/
theorem everyStepKeepsTheInvariant : Obligations.EveryStepKeepsTheInvariant := by
  intro s t h hs
  cases step_cases hs with
  | waits _ _ ht => exact ht ▸ h
  | accepts _ _ _ _ ht => exact ht ▸ h
  | resets _ _ _ _ ht => exact ht ▸ h
  | writes _ a v _ _ ht => exact ht ▸ Inv.hostWrite h a v
  | abandons _ _ _ _ _ _ _ ht => exact ht ▸ ⟨foldl_apply_wf h.1 _, h.2⟩
  | runs c _ hr => exact h.runCommand hr

/-- Settles O21: both commands act on the one cell that `byteAddr` names, at the position of the index. -/
theorem logicalBitStandsLeastSignificantFirst : Obligations.LogicalBitStandsLeastSignificantFirst := by
  refine ⟨fun s array index nbits a ha hi haddr => ?_, by decide⟩
  have hb : byteAddr array index = some a := byteAddr_eq_some.mpr haddr.symm
  refine ⟨?_, fun hm => ⟨_, exec_setbit_of_byteAddr ha hi hb s, fun k => ?_⟩⟩
  · rw [exec_getbit_of_byteAddr ha hi hb]
    simp [lastResponse, Memory.bitIn]
  · simp [Memory.setBitIn_getLsbD hm]

/-- Settles O30: `byteAddr` gives no address there, and every command asks it for its cells. -/
theorem cellPastTheTopIsRefused : Obligations.CellPastTheTopIsRefused := by
  refine ⟨fun s array index nbits ha hi htop => ?_, fun s array strp nbits bs hs hn ha htop => ?_⟩
  · have hb := byteAddr_eq_none.mpr htop
    exact ⟨exec_eq_refused.mpr ((setbitEffect_of_lt ha hi).trans (atCell_pastTop (.inl hb))),
      exec_eq_refused.mpr ((getbitEffect_of_lt ha hi).trans (atCell_pastTop (.inl hb)))⟩
  · simp only [← BitVec.toNat_umod, ← byteAddr_eq_none] at htop
    exact ⟨exec_eq_refused.mpr
        ((stringOpEffect_of_string hs hn).trans ((if_neg ha).trans (atCell_three_pastTop htop))),
      exec_eq_refused.mpr
        ((stringOpEffect_of_string hs hn).trans ((if_neg ha).trans (atCell_three_pastTop htop)))⟩

/-- Settles O37: by induction on the accesses of the command, each of which keeps the bits that are set. -/
theorem noCommandClearsABit : Obligations.NoCommandClearsABit := by
  intro i s t hm h
  obtain ⟨f, hf, rfl⟩ := exec_completed h
  exact ⟨fun b k => hf.performs.mono hm, f.made, rfl, fun a v hw =>
    ⟨hf.performs.stores_of_write hw, fun k => hf.performs.getLsbD_of_write hm hw⟩⟩

/-- Settles O38: a bit that changed is one the command may set, and those stand in its own array. -/
theorem onlyArrayBitsBelowTheCapacityChange : Obligations.OnlyArrayBitsBelowTheCapacityChange := by
  intro i s t b k hm h hb
  obtain ⟨f, hf, rfl⟩ := exec_completed h
  obtain ⟨j, hj, hk⟩ := hf.performs.maySet_of_changed hm hb
  exact ⟨hj.array_ne, j, hj.lt, hk.symm, (byteAddr_eq_some.mp hj.addr).symm⟩

/-- Settles O39: none of the five stores bits, so it makes no write and leaves memory as it is. -/
theorem frameOfTheReadingCommands : Obligations.FrameOfTheReadingCommands := by
  intro i s t array x nbits hi h
  have hreads : ¬ Stores i := by rcases hi with rfl | rfl | rfl | rfl | rfl <;> simp [Stores]
  obtain ⟨f, hf, rfl⟩ := exec_completed h
  have hmem : f.mem = s.mem := hf.performs.mem_eq_of_not_stores hreads
  exact ⟨fun a => congrArg (Memory.read · a) hmem, rfl, rfl, ⟨_, rfl⟩, f.made, rfl,
    fun a v hw => hreads (hf.performs.stores_of_write hw)⟩

/-- Settles O45: by induction on the accesses of the command. -/
theorem accessesAreInProgramOrder : Obligations.AccessesAreInProgramOrder := by
  intro i s t h
  obtain ⟨f, hf, rfl⟩ := exec_completed h
  exact ⟨f.made, rfl, hf.performs.coherent, hf.performs.foldl_apply.symm⟩

/-- Settles O46: the laws of memory. -/
theorem memWriteReplacesOneCell : Obligations.MemWriteReplacesOneCell := fun a v _ hm =>
  ⟨Memory.read_write_same hm a v, fun _ hb => Memory.read_write_other _ v hb, Memory.write_wf hm a v⟩

end Sys2Proof.Machine
end

section
/-! SUPPORT. What the decoder answers (30_encoding.md R61 to R65), said once as a relation between a
descriptor and the fields of a command; what each command answers (R66, R67); and the obligations on
the encoding. -/

namespace Sys2Proof

/-! ## A descriptor and its words -/

/-- `W0` is `OP` below `RSV0`. -/
theorem extractLsb'_low_eq_append (c : Command) : c.extractLsb' 0 32 = c.rsv0 ++ c.op :=
  (BitVec.extractLsb'_append_extractLsb'_eq_extractLsb' (show 8 = 0 + 8 from rfl)).symm

/-- The word `W0` holds an operation code exactly when `OP` does and `RSV0` is 0. -/
theorem extractLsb'_low_eq_iff {c : Command} {op : BitVec 8} :
    c.extractLsb' 0 32 = 0#24 ++ op ↔ c.op = op ∧ c.rsv0 = 0 := by
  rw [extractLsb'_low_eq_append]
  constructor
  · intro h
    have hop := congrArg (BitVec.extractLsb' 0 8) h
    have hrsv := congrArg (BitVec.extractLsb' 8 24) h
    rw [BitVec.extractLsb'_append_eq_right, BitVec.extractLsb'_append_eq_right] at hop
    rw [BitVec.extractLsb'_append_eq_left, BitVec.extractLsb'_append_eq_left] at hrsv
    exact ⟨hop, hrsv⟩
  · rintro ⟨hop, hrsv⟩
    rw [hop, hrsv]
    rfl

/-- A descriptor with `RSV0` = 0 is packed from its other fields. -/
theorem packCommand_of_rsv0 {c : Command} (h : c.rsv0 = 0) :
    packCommand c.op c.array c.arg c.nbits = c := by
  have hlow : 0#24 ++ c.op = c.extractLsb' 0 32 := (extractLsb'_low_eq_iff.mpr ⟨rfl, h⟩).symm
  unfold packCommand Command.array Command.arg Command.nbits
  rw [hlow, BitVec.extractLsb'_append_extractLsb'_eq_extractLsb' (show 32 = 0 + 32 from rfl),
    BitVec.extractLsb'_append_extractLsb'_eq_extractLsb' (show 64 = 0 + (32 + 32) from rfl),
    BitVec.extractLsb'_append_extractLsb'_eq_extractLsb' (show 96 = 0 + (32 + (32 + 32)) from rfl)]
  exact BitVec.extractLsb'_eq_self

/-- The mask of the opcode table keeps `W0` and clears the other words. -/
theorem and_lowMask (c : Command) :
    c &&& 0x000000000000000000000000FFFFFFFF#128 = (c.extractLsb' 0 32).zeroExtend 128 := by
  rw [BitVec.zeroExtend, BitVec.setWidth_eq_append (by decide),
    ← BitVec.setWidth_eq_extractLsb' (by decide)]
  exact BitVec.and_setWidth_allOnes 96 32 c

/-- `CMD & mask == match` speaks of `W0` alone (30_encoding.md R63). -/
theorem and_lowMask_eq_iff {c : Command} {k : Word} :
    c &&& 0x000000000000000000000000FFFFFFFF#128 = k.zeroExtend 128 ↔ c.extractLsb' 0 32 = k := by
  rw [and_lowMask]
  refine ⟨fun h => ?_, congrArg _⟩
  simpa using congrArg (BitVec.setWidth 32) h

/-! ## The decoder -/

/-- A branch of the decoder that answers a command is taken, or the answer is that of the branches
after it. -/
theorem of_ite_ok_eq_ok {p : Prop} [Decidable p] {i j : Instr} {o : Except Illegal Instr}
    (h : (if p then .ok j else o) = Except.ok i) : p ∧ j = i ∨ o = .ok i := by
  by_cases hp : p
  · rw [if_pos hp] at h
    exact .inl ⟨hp, Except.ok.inj h⟩
  · rw [if_neg hp] at h
    exact .inr h

/-- A branch of the decoder that answers an error is not taken where the answer is a command. -/
theorem of_ite_error_eq_ok {p : Prop} [Decidable p] {i : Instr} {e : Illegal} {o : Except Illegal Instr}
    (h : (if p then .error e else o) = Except.ok i) : ¬ p ∧ o = .ok i := by
  by_cases hp : p
  · rw [if_pos hp] at h
    cases h
  · rw [if_neg hp] at h
    exact ⟨hp, h⟩

/-- The decoder answers `i` exactly when the descriptor carries the opcode of `i`, 0 in `RSV0` and the
fields of `i`. -/
theorem decode_eq_ok {c : Command} {i : Instr} :
    decode c = .ok i ↔
      c.op = i.opcode ∧ c.rsv0 = 0 ∧ c.array = i.array ∧ c.arg = i.arg ∧ c.nbits = i.nbits := by
  constructor
  · intro h
    unfold decode at h
    have ⟨hr, h⟩ := of_ite_error_eq_ok h
    have ⟨_, h⟩ := of_ite_error_eq_ok h
    iterate 7
      obtain ⟨hop, rfl⟩ | h := of_ite_ok_eq_ok h
      · exact ⟨hop, not_not.mp hr, rfl, rfl, rfl⟩
    cases h
  · rintro ⟨hop, hr, ha, hx, hn⟩
    unfold decode
    rw [hop, hr, ha, hx, hn]
    cases i <;> rfl

/-- Encoding is inverse to decoding on the descriptors that decode. -/
theorem decode_eq_ok_iff_encode {c : Command} {i : Instr} : decode c = .ok i ↔ encode i = c := by
  constructor
  · intro h
    have ⟨hop, hr, ha, hx, hn⟩ := decode_eq_ok.mp h
    rw [encode, ← hop, ← ha, ← hx, ← hn, packCommand_of_rsv0 hr]
  · rintro rfl
    exact decode_eq_ok.mpr (Laws.FieldsKept.of_pack i)

/-- `W0` selects the command: it holds the opcode of a command with the fields of the descriptor
exactly when the descriptor decodes to that command. -/
theorem extractLsb'_low_eq_iff_decode {c : Command} (i : Instr) (ha : c.array = i.array)
    (hx : c.arg = i.arg) (hn : c.nbits = i.nbits) :
    c.extractLsb' 0 32 = i.opcode.zeroExtend 32 ↔ decode c = .ok i := by
  have hzext : i.opcode.zeroExtend 32 = 0#24 ++ i.opcode := BitVec.setWidth_eq_append (by decide)
  rw [hzext, extractLsb'_low_eq_iff, decode_eq_ok]
  simp [ha, hx, hn]

theorem Instr.opcode_toNat (i : Instr) : 1 ≤ i.opcode.toNat ∧ i.opcode.toNat ≤ 7 := by
  cases i <;> simp [Instr.opcode]

/-- The decoder answers some command exactly when `RSV0` is 0 and `OP` is 0x01 to 0x07. -/
theorem exists_decode_eq_ok {c : Command} :
    (∃ i, decode c = .ok i) ↔ c.rsv0 = 0 ∧ 1 ≤ c.op.toNat ∧ c.op.toNat ≤ 7 := by
  constructor
  · rintro ⟨i, h⟩
    have ⟨hop, hr, _⟩ := decode_eq_ok.mp h
    exact ⟨hr, hop ▸ i.opcode_toNat⟩
  · rintro ⟨hr, h1, h7⟩
    have hop : c.op = 1 ∨ c.op = 2 ∨ c.op = 3 ∨ c.op = 4 ∨ c.op = 5 ∨ c.op = 6 ∨ c.op = 7 := by
      bv_omega
    rcases hop with hop | hop | hop | hop | hop | hop | hop
    · exact ⟨.hash1 .., decode_eq_ok.mpr ⟨hop, hr, rfl, rfl, rfl⟩⟩
    · exact ⟨.hash2 .., decode_eq_ok.mpr ⟨hop, hr, rfl, rfl, rfl⟩⟩
    · exact ⟨.hash3 .., decode_eq_ok.mpr ⟨hop, hr, rfl, rfl, rfl⟩⟩
    · exact ⟨.setbit .., decode_eq_ok.mpr ⟨hop, hr, rfl, rfl, rfl⟩⟩
    · exact ⟨.getbit .., decode_eq_ok.mpr ⟨hop, hr, rfl, rfl, rfl⟩⟩
    · exact ⟨.insert .., decode_eq_ok.mpr ⟨hop, hr, rfl, rfl, rfl⟩⟩
    · exact ⟨.check .., decode_eq_ok.mpr ⟨hop, hr, rfl, rfl, rfl⟩⟩

/-- A descriptor is illegal exactly when `OP` is 0x00 or at least 0x08, or `RSV0` is not 0. -/
theorem forall_decode_ne_ok {c : Command} :
    (∀ i, decode c ≠ .ok i) ↔ c.op = 0x00#8 ∨ 0x08 ≤ c.op.toNat ∨ c.rsv0 ≠ 0 := by
  rw [← not_exists, exists_decode_eq_ok]
  constructor
  · intro h
    by_cases hr : c.rsv0 = 0
    · have hop : ¬ (1 ≤ c.op.toNat ∧ c.op.toNat ≤ 7) := fun hop => h ⟨hr, hop⟩
      bv_omega
    · exact .inr (.inr hr)
  · rintro (h0 | h8 | hr) ⟨hr0, h1, h7⟩
    · simp [h0] at h1
    · omega
    · exact hr hr0

end Sys2Proof

namespace Sys2Proof.Machine

/-! ## An illegal descriptor -/

/-- An illegal descriptor is answered without any access (30_encoding.md R64). -/
theorem runCommand_of_illegal {c : Command} (h : ∀ i, decode c ≠ .ok i) (s : State) :
    runCommand c s = .next (completed s.mem [] .illegalCmd Config.sentinel s) := by
  rw [← answerIllegal_eq_completed]
  unfold runCommand
  split
  · next i hd => exact absurd hd (h i)
  · rfl

/-- What a command answers depends on memory alone. -/
theorem lastResponse_exec_congr {s s' : State} (h : s'.mem = s.mem) (i : Instr) :
    lastResponse (exec i s') = lastResponse (exec i s) := by
  rw [exec_eq_outcomeOf, exec_eq_outcomeOf, h]
  cases commandEffect i s.mem with
  | ok f => simp [outcomeOf, lastResponse]
  | error r => rfl

/-! ## What each command answers -/

theorem Memory.bitIn_eq_zero_or_one (m : Memory) (a : Addr) (index : Word) :
    m.bitIn a index = 0 ∨ m.bitIn a index = 1 := by
  unfold Memory.bitIn
  split
  · exact .inr rfl
  · exact .inl rfl

/-- Without an error CHECK answers 0 or 1. -/
theorem checkResult_ok_eq_zero_or_one (b1 b2 b3 : Word) :
    checkResult .ok b1 b2 b3 = 0 ∨ checkResult .ok b1 b2 b3 = 1 := by
  unfold checkResult
  rw [if_neg (not_not.mpr rfl)]
  split
  · exact .inr rfl
  · exact .inl rfl

section
variable {array strp : Addr} {index nbits i1 i2 i3 : Word} {m : Memory} {f : Effect}
  {hash : List Byte → Word} {reads : List Access}

theorem hashEffect_answer (h : hashEffect hash strp m = .ok f) :
    f.err = .ok ∧ ∃ bs, m.string strp = some bs ∧ f.result = hash bs := by
  obtain ⟨bs, hs, rfl⟩ := hashEffect_eq_ok.mp h
  exact ⟨rfl, bs, hs, rfl⟩

theorem setbitEffect_answer (h : setbitEffect array index nbits m = .ok f) :
    (f.err = .ok ∨ f.err = .nullStorage ∨ f.err = .indexRange) ∧ f.result = 0 := by
  unfold setbitEffect at h
  split_ifs at h
  · cases h; exact ⟨.inr (.inl rfl), rfl⟩
  · cases h; exact ⟨.inr (.inr rfl), rfl⟩
  · obtain ⟨a, -, hf⟩ := atCell_eq_ok.mp h
    cases hf; exact ⟨.inl rfl, rfl⟩

theorem getbitEffect_answer (h : getbitEffect array index nbits m = .ok f) :
    (f.err = .ok ∧ (f.result = 0 ∨ f.result = 1)) ∨
      ((f.err = .nullStorage ∨ f.err = .indexRange) ∧ f.result = Config.sentinel) := by
  unfold getbitEffect at h
  split_ifs at h
  · cases h; exact .inr ⟨.inl rfl, rfl⟩
  · cases h; exact .inr ⟨.inr rfl, rfl⟩
  · obtain ⟨a, -, hf⟩ := atCell_eq_ok.mp h
    cases hf; exact .inl ⟨rfl, m.bitIn_eq_zero_or_one a index⟩

theorem insertAtEffect_answer (h : insertAtEffect array i1 i2 i3 reads m = .ok f) :
    (f.err = .ok ∨ f.err = .nullStorage) ∧ f.result = 0 := by
  unfold insertAtEffect at h
  split_ifs at h
  · cases h; exact ⟨.inr rfl, rfl⟩
  · simp only [atCell_eq_ok] at h
    obtain ⟨a1, -, a2, -, a3, -, hf⟩ := h
    cases hf; exact ⟨.inl rfl, rfl⟩

theorem checkAtEffect_answer (h : checkAtEffect array i1 i2 i3 reads m = .ok f) :
    (f.err = .ok ∧ (f.result = 0 ∨ f.result = 1)) ∨
      (f.err = .nullStorage ∧ f.result = Config.sentinel) := by
  unfold checkAtEffect at h
  split_ifs at h
  · cases h; exact .inr ⟨rfl, rfl⟩
  · simp only [atCell_eq_ok] at h
    obtain ⟨a1, -, a2, -, a3, -, hf⟩ := h
    cases hf; exact .inl ⟨rfl, checkResult_ok_eq_zero_or_one _ _ _⟩

end

/-- GETBIT with an index at or above the capacity reports it and makes no access
(41_bit_primitives.md R105). -/
theorem exec_getbit_of_le {array : Addr} {index nbits : Word} (ha : array ≠ Config.null)
    (hi : nbits ≤ index) (s : State) :
    exec (.getbit array index nbits) s =
      .next (completed s.mem [] .indexRange Config.sentinel s) :=
  exec_eq_next.mpr ⟨_, (if_neg ha).trans (if_pos hi), rfl⟩

/-! ## The fields of a response -/

/-- A field within `RSP[31:0]` is a field of `STATUS`. -/
theorem extractLsb'_response_of_le (e : Err) (r : Word) {start len : Nat} (h : start + len ≤ 32) :
    (response e r).extractLsb' start len = e.status.extractLsb' start len :=
  BitVec.extractLsb'_append_eq_of_add_le h

/-! ## The obligations -/

/-- Settles O1: the encoding of a command carries its fields, and the decoder reads them there. -/
theorem decodeOfEncodeGivesTheCommand : Obligations.DecodeOfEncodeGivesTheCommand := fun _ =>
  decode_eq_ok_iff_encode.mpr rfl

/-- Settles O2: a descriptor that decodes has `RSV0` = 0, so it is packed from the fields decoded. -/
theorem encodeOfDecodeGivesTheDescriptor : Obligations.EncodeOfDecodeGivesTheDescriptor := fun _ _ =>
  decode_eq_ok_iff_encode.mp

/-- Settles O3: the mask leaves `W0`, and `W0` is the opcode of what the descriptor decodes to. -/
theorem lowWordSelectsTheCommand : Obligations.LowWordSelectsTheCommand := by
  intro c
  have hsel := extractLsb'_low_eq_iff_decode (c := c)
  exact ⟨fun k => and_lowMask_eq_iff, hsel (.hash1 ..) rfl rfl rfl, hsel (.hash2 ..) rfl rfl rfl,
    hsel (.hash3 ..) rfl rfl rfl, hsel (.setbit ..) rfl rfl rfl, hsel (.getbit ..) rfl rfl rfl,
    hsel (.insert ..) rfl rfl rfl, hsel (.check ..) rfl rfl rfl⟩

/-- Settles O4: acceptance does not look at the descriptor, and the command in flight is answered as
illegal; memory is as it was, so the next command answers as it would have. -/
theorem illegalDescriptorsAreAnswered : Obligations.IllegalDescriptorsAreAnswered := by
  refine ⟨fun c => forall_decode_ne_ok.symm, fun c s hill => ⟨fun rest hi hn => step_of_idle hi hn,
    fun hb hu => ?_, fun i => lastResponse_exec_congr (completed_mem ..) i⟩, by decide⟩
  rw [step_of_busy_of_undisturbed hb hu, runCommand_of_illegal hill]

/-- Settles O42: the effect of a command fixes the response, family by family. -/
theorem resultForEveryStatus : Obligations.ResultForEveryStatus := by
  refine ⟨fun i s t h => ?_, fun c s hill => ⟨_, runCommand_of_illegal hill s, rfl⟩⟩
  obtain ⟨f, hf, rfl⟩ := exec_eq_next.mp h
  refine ⟨f.err, f.result, rfl, ?_⟩
  cases i with
  | hash1 | hash2 | hash3 => exact hashEffect_answer hf
  | setbit => exact setbitEffect_answer hf
  | getbit => exact getbitEffect_answer hf
  | insert =>
    obtain ⟨bs, -, -, hat⟩ := stringOpEffect_eq_ok.mp hf
    exact insertAtEffect_answer hat
  | check =>
    obtain ⟨bs, -, -, hat⟩ := stringOpEffect_eq_ok.mp hf
    exact checkAtEffect_answer hat

/-- Settles O5: the encodings are closed terms; the index of the GETBIT is its capacity. -/
theorem workedEncodings : Obligations.WorkedEncodings :=
  ⟨by decide, by decide, by decide, by decide, by decide,
    exec_getbit_of_le (by decide) (by decide), by decide, by decide, by decide⟩

/-- Settles O6: the result is the upper word, and the other two fields are those of `STATUS`. -/
theorem responseLayout : Obligations.ResponseLayout := by
  intro e r
  refine ⟨resultOf_response e r, ?_, ?_⟩
  · rw [extractLsb'_response_of_le e r (by decide)]
    cases e <;> rfl
  · rw [extractLsb'_response_of_le e r (by decide)]
    cases e <;> rfl

end Sys2Proof.Machine
end

section
/-! SUPPORT. The Hash Bank (40_hash_bank.md): the mixers as arithmetic on naturals, the hashes as left
folds, the string at an address cell by cell, and the obligations on them. -/

namespace Sys2Proof.Machine

/-! ## The mixers -/

/-- The multiplicative form of `mix1` (40_hash_bank.md R82). -/
theorem mix1_eq_ofNat (a : Word) (c : Byte) : mix1 a c = BitVec.ofNat 32 (33 * a.toNat + c.toNat) := by
  apply BitVec.eq_of_toNat_eq
  simp only [mix1, BitVec.toNat_add, BitVec.toNat_shiftLeft, BitVec.toNat_setWidth, BitVec.toNat_ofNat,
    Nat.shiftLeft_eq]
  omega

/-- The multiplicative form of `mix2` (40_hash_bank.md R83). -/
theorem mix2_eq_ofNat (a : Word) (c : Byte) : mix2 a c = BitVec.ofNat 32 (65599 * a.toNat + c.toNat) := by
  apply BitVec.eq_of_toNat_eq
  simp only [mix2, BitVec.toNat_sub, BitVec.toNat_add, BitVec.toNat_shiftLeft, BitVec.toNat_setWidth,
    BitVec.toNat_ofNat, Nat.shiftLeft_eq]
  omega

/-- The sum that `mix3` exclusive-ors in, with its logical right shift (40_hash_bank.md R84). -/
theorem mix3_eq_ofNat (a : Word) (c : Byte) :
    mix3 a c = a ^^^ BitVec.ofNat 32 ((a.toNat * 32) % 2 ^ 32 + a.toNat / 4 + c.toNat) := by
  unfold mix3
  congr 1
  apply BitVec.eq_of_toNat_eq
  simp only [BitVec.toNat_add, BitVec.toNat_shiftLeft, BitVec.toNat_ushiftRight, BitVec.toNat_setWidth,
    BitVec.toNat_ofNat, Nat.shiftLeft_eq, Nat.shiftRight_eq_div_pow]
  omega

/-! ## The hashes -/

/-- The left fold of a multiplicative mixer is the polynomial of the string at its multiplier
(40_hash_bank.md R85, R86). -/
theorem foldl_eq_polynomial {mix : Word → Byte → Word} {k : Nat}
    (hmix : ∀ a c, mix a c = BitVec.ofNat 32 (k * a.toNat + c.toNat)) (a : Nat) (bs : List Byte) :
    bs.foldl mix (BitVec.ofNat 32 a) = BitVec.ofNat 32
      (a * k ^ bs.length + ∑ i : Fin bs.length, (bs.get i).toNat * k ^ (bs.length - 1 - i.val)) := by
  induction bs generalizing a with
  | nil => simp
  | cons c cs ih =>
    have hstep : mix (BitVec.ofNat 32 a) c = BitVec.ofNat 32 (k * a + c.toNat) := by
      rw [hmix]
      apply BitVec.eq_of_toNat_eq
      simp [Nat.add_mod, Nat.mul_mod]
    have hexp (i : Fin cs.length) : cs.length - (i.val + 1) = cs.length - 1 - i.val := by omega
    rw [List.foldl_cons, hstep, ih]
    congr 1
    simp only [List.length_cons, Fin.sum_univ_succ, List.get_cons_zero, List.get_cons_succ', Fin.val_zero,
      Fin.val_succ, Nat.add_sub_cancel, Nat.sub_zero, hexp]
    ring

theorem hash1_nil : hash1 [] = 5381#32 := rfl
theorem hash2_nil : hash2 [] = 0#32 := rfl
theorem hash3_nil : hash3 [] = 0#32 := rfl

theorem hash1_concat (bs : List Byte) (c : Byte) : hash1 (bs ++ [c]) = mix1 (hash1 bs) c :=
  List.foldl_concat ..

theorem hash2_concat (bs : List Byte) (c : Byte) : hash2 (bs ++ [c]) = mix2 (hash2 bs) c :=
  List.foldl_concat ..

theorem hash3_concat (bs : List Byte) (c : Byte) : hash3 (bs ++ [c]) = mix3 (hash3 bs) c :=
  List.foldl_concat ..

theorem hash2_singleton (c : Byte) : hash2 [c] = c.zeroExtend 32 := by
  simp [hash2, mix2]

theorem hash3_singleton (c : Byte) : hash3 [c] = c.zeroExtend 32 := by
  simp [hash3, mix3]

/-- On a string of at most one byte neither mixer has an accumulator to act on (40_hash_bank.md R87). -/
theorem hash2_eq_hash3_of_length_le_one {bs : List Byte} (h : bs.length ≤ 1) : hash2 bs = hash3 bs := by
  match bs, h with
  | [], _ => rw [hash2_nil, hash3_nil]
  | [c], _ => rw [hash2_singleton, hash3_singleton]

theorem hash1_apple : hash1 [0x61, 0x70, 0x70, 0x6C, 0x65] = 0x0F199E37#32 := by decide
theorem hash2_apple : hash2 [0x61, 0x70, 0x70, 0x6C, 0x65] = 0x4F1E365A#32 := by decide
theorem hash3_apple : hash3 [0x61, 0x70, 0x70, 0x6C, 0x65] = 0x06B843B3#32 := by decide

/-! ## The string at an address -/

/-- The address `k` cells above the next one. -/
theorem add_one_add_ofNat (p : Addr) (k : Nat) :
    p + 1#32 + BitVec.ofNat 32 k = p + BitVec.ofNat 32 (k + 1) := by
  rw [BitVec.add_assoc, BitVec.ofNat_add, BitVec.add_comm 1#32]

/-- One turn of the search for the null. -/
theorem Memory.stringWithin_succ (m : Memory) (fuel : Nat) (p : Addr) :
    m.stringWithin (fuel + 1) p =
      if m.read p = 0#8 then some [] else (m.stringWithin fuel (p + 1#32)).map (m.read p :: ·) := rfl

/-- A string is empty before a null, and else begins with the byte of its first cell. -/
theorem Memory.stringWithin_succ_eq_some {m : Memory} {fuel : Nat} {p : Addr} {bs : List Byte} :
    m.stringWithin (fuel + 1) p = some bs ↔
      m.read p = 0#8 ∧ bs = [] ∨
      m.read p ≠ 0#8 ∧ ∃ cs, m.stringWithin fuel (p + 1#32) = some cs ∧ bs = m.read p :: cs := by
  rw [Memory.stringWithin_succ]
  split
  · next h => simp [h, eq_comm]
  · next h => simp [h, eq_comm]

/-- The cells a string stands in, when at most `fuel` cells are looked at. -/
theorem Memory.stringWithin_eq_some {m : Memory} {fuel : Nat} {p : Addr} {bs : List Byte} :
    m.stringWithin fuel p = some bs ↔
      bs.length < fuel ∧
      (∀ (k : Nat) (h : k < bs.length), m.read (p + BitVec.ofNat 32 k) = bs[k] ∧ bs[k] ≠ 0#8) ∧
      m.read (p + BitVec.ofNat 32 bs.length) = 0#8 := by
  induction fuel generalizing p bs with
  | zero => simp [Memory.stringWithin]
  | succ fuel ih =>
    rw [Memory.stringWithin_succ_eq_some]
    cases bs with
    | nil => simp
    | cons c cs =>
      constructor
      · rintro (⟨-, h⟩ | ⟨h0, cs, hcs, h⟩)
        · cases h
        · cases h
          obtain ⟨hlen, hbytes, hnull⟩ := ih.mp hcs
          refine ⟨Nat.succ_lt_succ hlen, fun k hk => ?_, add_one_add_ofNat p _ ▸ hnull⟩
          cases k with
          | zero => simpa using h0
          | succ k => simpa [add_one_add_ofNat] using hbytes k (Nat.lt_of_succ_lt_succ hk)
      · rintro ⟨hlen, hbytes, hnull⟩
        obtain ⟨hc, h0⟩ : m.read p = c ∧ c ≠ 0 := by simpa using hbytes 0 (Nat.succ_pos _)
        refine .inr ⟨hc ▸ h0, cs, ih.mpr ⟨Nat.lt_of_succ_lt_succ hlen, fun k hk => ?_, ?_⟩, by rw [hc]⟩
        · simpa [add_one_add_ofNat] using hbytes (k + 1) (Nat.succ_lt_succ hk)
        · rw [add_one_add_ofNat]; exact hnull

/-- No string is found exactly when none of the `fuel` cells looked at holds the null. -/
theorem Memory.stringWithin_eq_none {m : Memory} {fuel : Nat} {p : Addr} :
    m.stringWithin fuel p = none ↔ ∀ k < fuel, m.read (p + BitVec.ofNat 32 k) ≠ 0#8 := by
  induction fuel generalizing p with
  | zero => simp [Memory.stringWithin]
  | succ fuel ih =>
    rw [Memory.stringWithin_succ, Nat.forall_lt_succ_left]
    split
    · next h => simp [h]
    · next h => simp [h, ih, add_one_add_ofNat]

/-- The string fetch reads the cells of the string and the null after it, upward (40_hash_bank.md R81). -/
theorem stringReads_of_stringWithin {m : Memory} {fuel : Nat} {p : Addr} {bs : List Byte}
    (h : m.stringWithin fuel p = some bs) :
    stringReads p bs = (List.range (bs.length + 1)).map fun k =>
      .read (p + BitVec.ofNat 32 k) (m.read (p + BitVec.ofNat 32 k)) := by
  induction fuel generalizing p bs with
  | zero => simp [Memory.stringWithin] at h
  | succ fuel ih =>
    obtain ⟨h0, rfl⟩ | ⟨-, cs, hcs, rfl⟩ := Memory.stringWithin_succ_eq_some.mp h
    · simp [stringReads, h0]
    · rw [stringReads, List.length_cons, List.range_succ_eq_map]
      simp [ih hcs, add_one_add_ofNat]

/-- What the string at an address is (40_hash_bank.md R80). -/
theorem Memory.string_eq_some {m : Memory} {p : Addr} {bs : List Byte} :
    m.string p = some bs ↔
      p.toNat + bs.length < 2 ^ 32 ∧
      (∀ (k : Nat) (h : k < bs.length), m.read (p + BitVec.ofNat 32 k) = bs[k] ∧ bs[k] ≠ 0#8) ∧
      m.read (p + BitVec.ofNat 32 bs.length) = 0#8 := by
  have hlen : bs.length < Config.spaceSize - p.toNat ↔ p.toNat + bs.length < 2 ^ 32 := by
    simp only [Config.spaceSize]; omega
  rw [Memory.string, Memory.stringWithin_eq_some, hlen]

/-- No string stands at an address exactly when no null lies at or above it. -/
theorem Memory.string_eq_none {m : Memory} {p : Addr} :
    m.string p = none ↔ ∀ q : Addr, p.toNat ≤ q.toNat → m.read q ≠ 0#8 := by
  rw [Memory.string, Memory.stringWithin_eq_none]
  simp only [Config.spaceSize]
  constructor
  · intro h q hq
    have hpq : p + BitVec.ofNat 32 (q.toNat - p.toNat) = q := by bv_omega
    exact hpq ▸ h (q.toNat - p.toNat) (by have := q.isLt; omega)
  · intro h k hk
    have hsum : (p + BitVec.ofNat 32 k).toNat = p.toNat + k := by
      rw [BitVec.toNat_add, BitVec.toNat_ofNat]; omega
    exact h _ (by omega)

/-- A string stands at every address with a null at or above it. -/
theorem Memory.exists_string_of_terminated {m : Memory} {p : Addr} (h : m.terminated p) :
    ∃ bs, m.string p = some bs := by
  obtain ⟨q, hq, h0⟩ := h
  exact Option.ne_none_iff_exists'.mp fun hnone => Memory.string_eq_none.mp hnone q hq h0

/-- The string before the first null at or above an address. -/
theorem Memory.string_of_first_null {m : Memory} {p : Addr} {L : Nat} (hL : p.toNat + L < 2 ^ 32)
    (hbytes : ∀ k < L, m.read (p + BitVec.ofNat 32 k) ≠ 0#8)
    (hnull : m.read (p + BitVec.ofNat 32 L) = 0#8) :
    m.string p = some ((List.range L).map fun k => m.read (p + BitVec.ofNat 32 k)) := by
  rw [Memory.string_eq_some]
  simpa using ⟨hL, hbytes, hnull⟩

/-- A null at the address itself leaves the empty string. -/
theorem Memory.string_of_read_eq_zero {m : Memory} {p : Addr} (h : m.read p = 0#8) :
    m.string p = some [] :=
  Memory.string_of_first_null (L := 0) p.isLt (by simp) (by simpa using h)

/-! ## The string fetch -/

theorem strBytes_eq_ok {p : Addr} {s t : State} {bs : List Byte} :
    strBytes p s = .ok (bs, t) ↔ s.mem.string p = some bs ∧ t = afterString p bs s := by
  rw [strBytes_eq]
  cases s.mem.string p with
  | none => simp
  | some cs =>
    simp only [Except.ok.injEq, Prod.mk.injEq, Option.some.injEq]
    exact and_congr_right fun h => h ▸ eq_comm

theorem strBytes_of_string_eq_none {p : Addr} {s : State} (h : s.mem.string p = none) :
    strBytes p s = .error .stringUnterminated := by
  rw [strBytes_eq, h]

/-! ## The commands that read a string -/

/-- A hash command completes with the hash of the string (40_hash_bank.md R88 to R90). -/
theorem exec_of_hashEffect {i : Instr} {s : State} {hash : List Byte → Word} {strp : Addr}
    {bs : List Byte} (hi : commandEffect i = hashEffect hash strp) (hs : s.mem.string strp = some bs) :
    exec i s = .next (completed s.mem (stringReads strp bs) .ok (hash bs) s) :=
  exec_eq_next.mpr ⟨_, hi ▸ hashEffect_eq_ok.mpr ⟨bs, hs, rfl⟩, rfl⟩

/-- The empty string takes one read (40_hash_bank.md R88 to R90). -/
theorem exec_of_hashEffect_of_read_eq_zero {i : Instr} {s : State} {hash : List Byte → Word}
    {strp : Addr} (hi : commandEffect i = hashEffect hash strp) (h : s.mem.read strp = 0#8) :
    exec i s = .next (completed s.mem [.read strp 0#8] .ok (hash []) s) :=
  exec_of_hashEffect hi (Memory.string_of_read_eq_zero h)

/-- The response of a hash command holds the hash of the string (40_hash_bank.md R88 to R90). -/
theorem lastResponse_exec_of_hashEffect {i : Instr} {s : State} {hash : List Byte → Word} {strp : Addr}
    {bs : List Byte} (hi : commandEffect i = hashEffect hash strp) (hs : s.mem.string strp = some bs) :
    lastResponse (exec i s) = some (response .ok (hash bs)) :=
  (congrArg lastResponse (exec_of_hashEffect hi hs)).trans List.getLast?_concat

theorem hashEffect_of_string_eq_none {hash : List Byte → Word} {strp : Addr} {m : Memory}
    (h : m.string strp = none) : hashEffect hash strp m = .error .stringUnterminated := by
  rw [hashEffect, h]

theorem stringOpEffect_of_string_eq_none
    {cont : Word → Word → Word → List Access → Memory → Except Refusal Effect} {strp : Addr}
    {nbits : Word} {m : Memory} (h : m.string strp = none) :
    stringOpEffect cont strp nbits m = .error .stringUnterminated := by
  rw [stringOpEffect, h]

/-- A command that reads a string has no meaning where none stands (40_hash_bank.md R81). -/
theorem exec_of_string_eq_none {i : Instr} {s : State} (hi : i.readsString)
    (hs : s.mem.string i.arg = none) : exec i s = .refused .stringUnterminated := by
  rw [exec_eq_refused]
  cases i with
  | hash1 | hash2 | hash3 => exact hashEffect_of_string_eq_none hs
  | insert | check => exact stringOpEffect_of_string_eq_none hs
  | setbit | getbit => cases hi

/-! ## The obligations -/

/-- Settles O7: the multiplicative form is arithmetic on naturals. -/
theorem mix1IsTheMultiplicativeMixer : Obligations.Mix1IsTheMultiplicativeMixer :=
  ⟨fun a c => ⟨rfl, mix1_eq_ofNat a c⟩, by decide, by decide, by decide⟩

/-- Settles O8: the multiplicative form is arithmetic on naturals. -/
theorem mix2IsTheShiftAddSubtractMixer : Obligations.Mix2IsTheShiftAddSubtractMixer :=
  ⟨fun a c => ⟨rfl, mix2_eq_ofNat a c⟩, by decide, by decide, by decide, by decide⟩

/-- Settles O9: the sum of the shifts is arithmetic on naturals. -/
theorem mix3IsTheShiftXorMixer : Obligations.Mix3IsTheShiftXorMixer :=
  ⟨mix3_eq_ofNat, by decide, by decide, by decide, by decide⟩

/-- Settles O10: the closed form is the polynomial of the string at 33. -/
theorem hash1FoldsMix1FromTheLeft : Obligations.Hash1FoldsMix1FromTheLeft :=
  ⟨hash1_nil, hash1_concat, foldl_eq_polynomial mix1_eq_ofNat 5381, mix1_eq_ofNat 5381#32, hash1_apple⟩

/-- Settles O11: the closed form is the polynomial of the string at 65599. -/
theorem hash2FoldsMix2FromTheLeft : Obligations.Hash2FoldsMix2FromTheLeft :=
  ⟨hash2_nil, hash2_concat, fun bs => by simpa [hash2] using foldl_eq_polynomial mix2_eq_ofNat 0 bs,
    hash2_singleton, hash2_apple⟩

/-- Settles O12: equal hashes have equal indices. -/
theorem hash3FoldsMix3FromTheLeft : Obligations.Hash3FoldsMix3FromTheLeft := by
  refine ⟨hash3_nil, hash3_concat, hash3_singleton, fun bs n hbs => ?_, hash3_apple⟩
  have h := hash2_eq_hash3_of_length_le_one hbs
  exact ⟨h, congrArg (reduce · n) h⟩

/-- Settles O13: by induction on the cells looked at. -/
theorem stringIsTheBytesBeforeTheNull : Obligations.StringIsTheBytesBeforeTheNull := fun _ _ _ =>
  Memory.string_eq_some

/-- Settles O14: the fetch gives the string at the address, or refuses where none stands. -/
theorem stringFetchReadsToTheNull : Obligations.StringFetchReadsToTheNull := by
  refine fun s p => ⟨fun L hL hbytes hnull => ?_, fun bs t h => ?_, fun h => ?_, fun h => ?_⟩
  · have hs := Memory.string_of_first_null hL hbytes hnull
    refine ⟨_, strBytes_eq_ok.mpr ⟨hs, rfl⟩, ?_⟩
    simp [afterString, stringReads_of_stringWithin hs]
  · obtain ⟨-, rfl⟩ := strBytes_eq_ok.mp h
    exact ⟨rfl, rfl, rfl, rfl⟩
  · obtain ⟨bs, hs⟩ := Memory.exists_string_of_terminated h
    exact ⟨bs, _, strBytes_eq_ok.mpr ⟨hs, rfl⟩⟩
  · exact strBytes_of_string_eq_none (Memory.string_eq_none.mpr h)

/-- Settles O15: the effect of HASH1 is that of the string at its address, for every `ARRAY` and `NBITS`. -/
theorem hash1AnswersTheHash : Obligations.Hash1AnswersTheHash :=
  ⟨fun _ => (extractLsb'_low_eq_iff_decode (.hash1 ..) rfl rfl rfl).mp,
    fun _ _ _ _ _ hs => exec_of_hashEffect (hash := hash1) rfl hs,
    fun _ _ _ _ h0 => exec_of_hashEffect_of_read_eq_zero (hash := hash1) rfl h0,
    fun _ hs => (lastResponse_exec_of_hashEffect (hash := hash1) rfl hs).trans (hash1_apple ▸ rfl)⟩

/-- Settles O16: the effect of HASH2 is that of the string at its address, for every `ARRAY` and `NBITS`. -/
theorem hash2AnswersTheHash : Obligations.Hash2AnswersTheHash :=
  ⟨fun _ => (extractLsb'_low_eq_iff_decode (.hash2 ..) rfl rfl rfl).mp,
    fun _ _ _ _ _ hs => exec_of_hashEffect (hash := hash2) rfl hs,
    fun _ _ _ _ h0 => exec_of_hashEffect_of_read_eq_zero (hash := hash2) rfl h0,
    fun _ hs => (lastResponse_exec_of_hashEffect (hash := hash2) rfl hs).trans (hash2_apple ▸ rfl)⟩

/-- Settles O17: the effect of HASH3 is that of the string at its address, for every `ARRAY` and `NBITS`. -/
theorem hash3AnswersTheHash : Obligations.Hash3AnswersTheHash :=
  ⟨fun _ => (extractLsb'_low_eq_iff_decode (.hash3 ..) rfl rfl rfl).mp,
    fun _ _ _ _ _ hs => exec_of_hashEffect (hash := hash3) rfl hs,
    fun _ _ _ _ h0 => exec_of_hashEffect_of_read_eq_zero (hash := hash3) rfl h0,
    fun _ hs => (lastResponse_exec_of_hashEffect (hash := hash3) rfl hs).trans (hash3_apple ▸ rfl)⟩

/-- Settles O18: memory holds no string there, and each of the five commands reads one. -/
theorem unterminatedStringIsRefused : Obligations.UnterminatedStringIsRefused := by
  intro s array strp nbits h
  have hs := Memory.string_eq_none.mpr h
  exact ⟨exec_of_string_eq_none rfl hs, exec_of_string_eq_none rfl hs, exec_of_string_eq_none rfl hs,
    exec_of_string_eq_none rfl hs, exec_of_string_eq_none rfl hs⟩

end Sys2Proof.Machine
end

section
/-! SUPPORT. The bit primitives (41_bit_primitives.md R100 to R111): what SETBIT and GETBIT do in each
of their three cases, and the obligations on them. -/

namespace Sys2Proof.Machine

/-! ## Bits of memory -/

/-- The mask is the one-bit byte of the position of the index (41_bit_primitives.md R101). -/
theorem mask_toNat (index : Word) : (mask index).toNat = 2 ^ (index.toNat % 8) := by
  have hpow : 2 ^ (index.toNat % 8) < 2 ^ 8 :=
    Nat.pow_lt_pow_right (by decide) (Nat.mod_lt _ (by decide))
  rw [mask, bitPos_eq, BitVec.toNat_shiftLeft, Nat.shiftLeft_eq]
  simpa using Nat.mod_eq_of_lt hpow

/-- Setting a bit leaves every other cell alone, in canonical form or not. -/
theorem Memory.setBitIn_read_other (m : Memory) {a b : Addr} (index : Word) (h : b ≠ a) :
    (m.setBitIn a index).read b = m.read b :=
  Memory.read_write_other m _ h

/-- A bit that has been set is the one `get_bit` reads (41_bit_primitives.md R106). -/
theorem Memory.bitIn_setBitIn_self {m : Memory} (hm : m.wf) (a : Addr) (index : Word) :
    (m.setBitIn a index).bitIn a index = 1 :=
  if_pos (Memory.setBitIn_self hm a index)

/-- Setting a bit again changes nothing (41_bit_primitives.md R107). -/
theorem Memory.setBitIn_setBitIn {m : Memory} (hm : m.wf) (a : Addr) (index : Word) :
    (m.setBitIn a index).setBitIn a index = m.setBitIn a index := by
  unfold Memory.setBitIn
  rw [Memory.write_write hm, Memory.read_write_same hm, BitVec.or_assoc, BitVec.or_self]

/-! ## The three cases of a bit primitive -/

/-- The shape the effects of SETBIT and GETBIT share: the null test, the range test, and then the
addressed cell (41_bit_primitives.md R102, R103). -/
def nullThenRange (array : Addr) (index nbits : Word) (onNull onRange : Effect) (atBit : Addr → Effect) :
    Except Refusal Effect :=
  if array = Config.null then .ok onNull
  else if nbits ≤ index then .ok onRange
  else atCell array index fun a => .ok (atBit a)

section
variable {array : Addr} {index nbits : Word} {m : Memory} {f onNull onRange : Effect}
  {atBit : Addr → Effect}

theorem setbitEffect_eq_nullThenRange :
    setbitEffect array index nbits m =
      nullThenRange array index nbits ⟨m, [], .nullStorage, 0⟩ ⟨m, [], .indexRange, 0⟩
        fun a => ⟨m.setBitIn a index, setAccesses m a index, .ok, 0⟩ := rfl

theorem getbitEffect_eq_nullThenRange :
    getbitEffect array index nbits m =
      nullThenRange array index nbits ⟨m, [], .nullStorage, Config.sentinel⟩
        ⟨m, [], .indexRange, Config.sentinel⟩
        fun a => ⟨m, [.read a (m.read a)], .ok, m.bitIn a index⟩ := rfl

theorem nullThenRange_cases (h : nullThenRange array index nbits onNull onRange atBit = .ok f) :
    (array = Config.null ∧ f = onNull) ∨ (nbits ≤ index ∧ f = onRange) ∨
      (array ≠ Config.null ∧ index < nbits ∧ ∃ a, byteAddr array index = some a ∧ f = atBit a) := by
  unfold nullThenRange at h
  split_ifs at h with ha hi
  · cases h; exact .inl ⟨ha, rfl⟩
  · cases h; exact .inr (.inl ⟨hi, rfl⟩)
  · obtain ⟨a, hb, hf⟩ := atCell_eq_ok.mp h
    cases hf; exact .inr (.inr ⟨ha, BitVec.not_le.mp hi, a, hb, rfl⟩)

theorem setbitEffect_cases (h : setbitEffect array index nbits m = .ok f) :
    (array = Config.null ∧ f = ⟨m, [], .nullStorage, 0⟩) ∨
      (nbits ≤ index ∧ f = ⟨m, [], .indexRange, 0⟩) ∨
      (array ≠ Config.null ∧ index < nbits ∧ ∃ a, byteAddr array index = some a ∧
        f = ⟨m.setBitIn a index, setAccesses m a index, .ok, 0⟩) :=
  nullThenRange_cases (setbitEffect_eq_nullThenRange.symm.trans h)

/-- A second SETBIT of the same bit has an effect that leaves the same memory and gives the same
response; its accesses may write other bytes (41_bit_primitives.md R107). -/
theorem setbitEffect_again (hm : m.wf) (h : setbitEffect array index nbits m = .ok f) :
    ∃ made, setbitEffect array index nbits f.mem = .ok { f with made := made } := by
  obtain ⟨-, rfl⟩ | ⟨-, rfl⟩ | ⟨ha, hi, a, hb, rfl⟩ := setbitEffect_cases h
  · exact ⟨_, h⟩
  · exact ⟨_, h⟩
  · refine ⟨setAccesses (m.setBitIn a index) a index, ?_⟩
    rw [setbitEffect_of_lt ha hi, atCell_of_byteAddr hb, Memory.setBitIn_setBitIn hm]

/-- Where only the two tests report errors, and leave memory `m` without an access, so does every
effect with an error (41_bit_primitives.md R111). -/
theorem nullThenRange_of_err (h : nullThenRange array index nbits onNull onRange atBit = .ok f)
    (he : f.err ≠ .ok) (hnull : onNull.mem = m ∧ onNull.made = [])
    (hrange : onRange.mem = m ∧ onRange.made = []) (hbit : ∀ a, (atBit a).err = .ok) :
    f.mem = m ∧ f.made = [] := by
  obtain ⟨-, rfl⟩ | ⟨-, rfl⟩ | ⟨-, -, a, -, rfl⟩ := nullThenRange_cases h
  · exact hnull
  · exact hrange
  · exact absurd (hbit a) he

end

/-! ## The commands that report an error -/

/-- SETBIT on a null array reports it and makes no access (41_bit_primitives.md R104). -/
theorem exec_setbit_of_null {array : Addr} (ha : array = Config.null) (index nbits : Word) (s : State) :
    exec (.setbit array index nbits) s = .next (completed s.mem [] .nullStorage 0 s) :=
  exec_eq_next.mpr ⟨_, if_pos ha, rfl⟩

/-- GETBIT on a null array reports it and makes no access (41_bit_primitives.md R105). -/
theorem exec_getbit_of_null {array : Addr} (ha : array = Config.null) (index nbits : Word) (s : State) :
    exec (.getbit array index nbits) s =
      .next (completed s.mem [] .nullStorage Config.sentinel s) :=
  exec_eq_next.mpr ⟨_, if_pos ha, rfl⟩

/-- SETBIT with an index at or above the capacity reports it and makes no access
(41_bit_primitives.md R104). -/
theorem exec_setbit_of_le {array : Addr} {index nbits : Word} (ha : array ≠ Config.null)
    (hi : nbits ≤ index) (s : State) :
    exec (.setbit array index nbits) s = .next (completed s.mem [] .indexRange 0 s) :=
  exec_eq_next.mpr ⟨_, (if_neg ha).trans (if_pos hi), rfl⟩

/-- The last response of a completed command is its own. -/
theorem lastResponse_of_completed {o : Outcome} {m : Memory} {made : List Access} {e : Err} {r : Word}
    {s : State} (h : o = .next (completed m made e r s)) : lastResponse o = some (response e r) :=
  h ▸ List.getLast?_concat

/-! ## The obligations -/

/-- Settles O22: one case of SETBIT after the other; the example is the third case at cell 0x101. -/
theorem setbitSetsTheBitOrReports : Obligations.SetbitSetsTheBitOrReports := by
  refine ⟨fun _ => (extractLsb'_low_eq_iff_decode (.setbit ..) rfl rfl rfl).mp,
    fun s array index nbits => ⟨fun ha => exec_setbit_of_null ha index nbits s,
      fun ha hi => exec_setbit_of_le ha hi s, fun ha hi _ hb => exec_setbit_of_byteAddr ha hi hb s⟩,
    fun s hm h0 => ?_⟩
  have hb : byteAddr 0x100#32 12#32 = some 0x101#32 := by decide
  refine ⟨_, exec_setbit_of_byteAddr (by decide) (by decide) hb s, ?_, rfl⟩
  rw [completed_mem, Memory.setBitIn, Memory.read_write_same hm, h0]
  decide

/-- Settles O23: one case of GETBIT after the other; the examples are the third case at cell 0x101,
for a bit that is 1 and one that is 0, and the second. -/
theorem getbitAnswersTheBitOrReports : Obligations.GetbitAnswersTheBitOrReports := by
  refine ⟨fun _ => (extractLsb'_low_eq_iff_decode (.getbit ..) rfl rfl rfl).mp,
    fun s array index nbits => ⟨fun ha => exec_getbit_of_null ha index nbits s,
      fun ha hi => exec_getbit_of_le ha hi s, fun ha hi _ hb => exec_getbit_of_byteAddr ha hi hb s⟩,
    fun s h => ?_⟩
  have hbit (index : Word) (hi : index < 13#32) (hb : byteAddr 0x100#32 index = some 0x101#32) :
      lastResponse (exec (.getbit 0x100#32 index 13#32) s) =
        some (response .ok (if (0x10#8).getLsbD (index.toNat % 8) then 1 else 0)) := by
    rw [lastResponse_of_completed (exec_getbit_of_byteAddr (by decide) hi hb s), Memory.bitIn, h]
  refine ⟨(hbit 12#32 (by decide) (by decide)).trans (by decide),
    (hbit 11#32 (by decide) (by decide)).trans (by decide), ?_⟩
  rw [lastResponse_of_completed (exec_getbit_of_le (by decide) (by decide) s)]
  decide

/-- Settles O24: the memory left is that of `setBitIn` at the addressed cell. -/
theorem setThenGetAndTheFrame : Obligations.SetThenGetAndTheFrame := by
  intro s array index nbits a hm ha hi hb
  refine ⟨_, exec_setbit_of_byteAddr ha hi hb s, ?_, fun k hk => ?_,
    fun b => Memory.setBitIn_read_other s.mem index, fun b k => Memory.setBitIn_mono hm a b index⟩
  · rw [lastResponse_of_completed (exec_getbit_of_byteAddr ha hi hb _), completed_mem,
      Memory.bitIn_setBitIn_self hm]
    rfl
  · rw [completed_mem, Memory.setBitIn_getLsbD hm]
    simp [hk]

/-- Settles O25: the second SETBIT has the effect of the first, but for the bytes on the bus. -/
theorem setbitIsIdempotent : Obligations.SetbitIsIdempotent := by
  intro s t array index nbits hm h
  obtain ⟨f, hf, rfl⟩ := exec_eq_next.mp h
  obtain ⟨made, hagain⟩ := setbitEffect_again hm hf
  exact ⟨_, exec_eq_next.mpr ⟨_, hagain, rfl⟩, rfl, by simp⟩

/-- Settles O26: the last index has a cell where the array fits; beyond it both commands report. -/
theorem capacityIsTheBoundary : Obligations.CapacityIsTheBoundary := by
  refine fun s array nbits ha => ⟨fun hn hf => ?_, fun index hi => ?_⟩
  · have hlast : nbits - 1#32 < nbits := by bv_omega
    obtain ⟨a, hb⟩ := byteAddr_of_fits hf hlast
    exact ⟨lastResponse_of_completed (exec_setbit_of_byteAddr ha hlast hb s), _,
      s.mem.bitIn_eq_zero_or_one a _,
      lastResponse_of_completed (exec_getbit_of_byteAddr ha hlast hb s)⟩
  · exact ⟨⟨_, exec_setbit_of_le ha hi s, rfl, rfl⟩, ⟨_, exec_getbit_of_le ha hi s, rfl, rfl⟩⟩

/-- Settles O27: the effect of the error leaves memory as it is, so it is the effect again. -/
theorem errorsLeaveNoTrace : Obligations.ErrorsLeaveNoTrace := by
  intro s t array index nbits i hi h r hr he
  obtain ⟨f, hf, rfl⟩ := exec_eq_next.mp h
  obtain rfl : response f.err f.result = r := by simpa using hr
  rw [errOf_response] at he
  have hnone : f.mem = s.mem ∧ f.made = [] := by
    obtain rfl | rfl := hi
    · exact nullThenRange_of_err (setbitEffect_eq_nullThenRange.symm.trans hf) he ⟨rfl, rfl⟩ ⟨rfl, rfl⟩
        fun _ => rfl
    · exact nullThenRange_of_err (getbitEffect_eq_nullThenRange.symm.trans hf) he ⟨rfl, rfl⟩ ⟨rfl, rfl⟩
        fun _ => rfl
  obtain ⟨hmem, hmade⟩ := hnone
  exact ⟨hmem, rfl, by simp [hmade], _, exec_eq_next.mpr ⟨f, hmem.symm ▸ hf, rfl⟩, hmem, rfl⟩

/-- Settles O40: in the two error cases memory is untouched, and in the third one cell is written. -/
theorem frameOfSetbit : Obligations.FrameOfSetbit := by
  intro s t array index nbits h
  obtain ⟨f, hf, rfl⟩ := exec_eq_next.mp h
  refine ⟨?_, ?_, rfl, rfl, ⟨_, rfl⟩, f.made, rfl⟩
  · intro a ha b hne
    obtain ⟨-, rfl⟩ | ⟨-, rfl⟩ | ⟨-, -, a', hb, rfl⟩ := setbitEffect_cases hf
    · rfl
    · rfl
    · obtain rfl : a' = a := Option.some.inj (hb.symm.trans ha)
      exact Memory.setBitIn_read_other s.mem index hne
  · intro herr b
    obtain ⟨-, rfl⟩ | ⟨-, rfl⟩ | ⟨ha, hi, a, -, rfl⟩ := setbitEffect_cases hf
    · rfl
    · rfl
    · exact absurd herr (not_or.mpr ⟨ha, BitVec.not_le.mpr hi⟩)

/-- Settles O19: for a capacity that is not 0 the value is `h % n`, and the clauses are facts of it. -/
theorem reduceIsTheUnsignedRemainder : Obligations.ReduceIsTheUnsignedRemainder := by
  refine ⟨fun h n hn => ⟨h % n, reduce_of_ne hn h, BitVec.toNat_umod, mod_lt_of_ne hn h, ?_, ?_⟩,
    fun h => if_pos rfl, by decide⟩
  · rintro rfl
    exact BitVec.umod_one
  · exact BitVec.umod_eq_of_lt

/-- Settles O20: the laws of bit addressing, and the examples by evaluation. -/
theorem bitAddressing : Obligations.BitAddressing :=
  ⟨fun index => ⟨byteIndex_toNat index, bitPos_eq index, mask_toNat index⟩,
    fun _ _ _ => byteAddr_eq_some, fun _ _ => byteAddr_eq_none, by decide, by decide, by decide⟩

end Sys2Proof.Machine
end

section
/-! SUPPORT. The string operations (42_string_ops.md R120 to R128): the three cells a string hashes to,
what INSERT and CHECK do in each of their cases, that bits of an array survive whatever spares it, and
the obligations on them. -/

namespace Sys2Proof.Machine

/-! ## Bits of memory -/

theorem Memory.bitSet_setBitIn {m : Memory} (hm : m.wf) {a b : Addr} {index : Word} {k : Nat} :
    (m.setBitIn a index).bitSet b k ↔ m.bitSet b k ∨ b = a ∧ k = index.toNat % 8 := by
  simp [Memory.bitSet, Memory.setBitIn_getLsbD hm]

theorem Memory.setBitIn_read_self {m : Memory} (hm : m.wf) (a : Addr) (index : Word) :
    (m.setBitIn a index).read a = m.read a ||| mask index :=
  Memory.read_write_same hm a _

theorem Memory.bitIn_eq_one_iff {m : Memory} {a : Addr} {index : Word} :
    m.bitIn a index = 1 ↔ m.bitSet a (index.toNat % 8) := by
  unfold Memory.bitIn Memory.bitSet
  split <;> simp [*]

/-- Setting a bit that is set changes nothing. -/
theorem Memory.setBitIn_of_bitSet {m : Memory} (hm : m.wf) {a : Addr} {index : Word}
    (h : m.bitSet a (index.toNat % 8)) : m.setBitIn a index = m := by
  have hor : m.read a ||| mask index = m.read a := by
    refine BitVec.eq_of_getLsbD_eq fun k _ => ?_
    rw [or_mask_getLsbD, Bool.or_eq_left_iff_imp, decide_eq_true_eq]
    rintro rfl
    exact h
  rw [Memory.setBitIn, hor, Memory.write_read hm]

/-- The order in which two bits are set does not matter. -/
theorem Memory.setBitIn_comm {m : Memory} (hm : m.wf) (a b : Addr) (i j : Word) :
    (m.setBitIn a i).setBitIn b j = (m.setBitIn b j).setBitIn a i := by
  have ha := Memory.setBitIn_wf hm a i
  have hb := Memory.setBitIn_wf hm b j
  refine Memory.ext_read (Memory.setBitIn_wf ha b j) (Memory.setBitIn_wf hb a i) fun c =>
    BitVec.eq_of_getLsbD_eq fun k _ => ?_
  simp only [Memory.setBitIn_getLsbD ha, Memory.setBitIn_getLsbD hb, Memory.setBitIn_getLsbD hm]
  exact Bool.or_right_comm ..

/-! ## The three cells of a string -/

/-- The three indices of a string in an array of capacity `n` (42_string_ops.md R120). -/
def hashedIndices (n : Word) (bs : List Byte) : List Word := [hash1 bs % n, hash2 bs % n, hash3 bs % n]

/-- The bits of the three indices stand in the cells `a1`, `a2`, `a3`. -/
structure HashedCells (array : Addr) (n : Word) (bs : List Byte) (a1 a2 a3 : Addr) : Prop where
  cell1 : byteAddr array (hash1 bs % n) = some a1
  cell2 : byteAddr array (hash2 bs % n) = some a2
  cell3 : byteAddr array (hash3 bs % n) = some a3

/-- Memory after the three calls of `set_bit` (42_string_ops.md R121). -/
def Memory.setHashed (m : Memory) (n : Word) (bs : List Byte) (a1 a2 a3 : Addr) : Memory :=
  ((m.setBitIn a1 (hash1 bs % n)).setBitIn a2 (hash2 bs % n)).setBitIn a3 (hash3 bs % n)

/-- Every one of the three bits that has a cell is 1, whoever set it. -/
def Memory.holds (m : Memory) (array : Addr) (n : Word) (bs : List Byte) : Prop :=
  ∀ i ∈ hashedIndices n bs, ∀ a, byteAddr array i = some a → m.bitSet a (i.toNat % 8)

/-- With capacity 1 every string hashes to the bit 0 three times. -/
theorem hashedIndices_one (bs : List Byte) : hashedIndices 1#32 bs = [0, 0, 0] := by
  simp [hashedIndices, BitVec.umod_one]

theorem lt_of_mem_hashedIndices {n i : Word} {bs : List Byte} (hn : n ≠ 0)
    (hi : i ∈ hashedIndices n bs) : i < n := by
  simp only [hashedIndices, List.mem_cons, List.not_mem_nil, or_false] at hi
  obtain rfl | rfl | rfl := hi <;> exact mod_lt_of_ne hn _

/-- The cell of an index below the capacity is one of the `ceil(n / 8)` cells of the array. -/
theorem byteAddr_mem_array {array a : Addr} {i n : Word} (hi : i < n) (h : byteAddr array i = some a) :
    array.toNat ≤ a.toNat ∧ a.toNat < array.toNat + (n.toNat + 7) / 8 := by
  have haddr := byteAddr_eq_some.mp h
  have hlt : i.toNat < n.toNat := hi
  omega

theorem inArray_of_byteAddr {array a : Addr} {i n : Word} (ha : array ≠ Config.null) (hi : i < n)
    (h : byteAddr array i = some a) : inArray array n a = true :=
  decide_eq_true ⟨ha, byteAddr_mem_array hi h⟩

section
variable {array a1 a2 a3 : Addr} {n : Word} {bs : List Byte} {m : Memory}

theorem exists_hashedCells_of_fits (hn : n ≠ 0) (hf : arrayFits array n) (bs : List Byte) :
    ∃ a1 a2 a3, HashedCells array n bs a1 a2 a3 := by
  obtain ⟨a1, h1⟩ := byteAddr_of_fits hf (mod_lt_of_ne hn (hash1 bs))
  obtain ⟨a2, h2⟩ := byteAddr_of_fits hf (mod_lt_of_ne hn (hash2 bs))
  obtain ⟨a3, h3⟩ := byteAddr_of_fits hf (mod_lt_of_ne hn (hash3 bs))
  exact ⟨a1, a2, a3, h1, h2, h3⟩

/-- With capacity 1 the cells are the same for every string. -/
theorem HashedCells.of_capacity_one (h : HashedCells array 1#32 bs a1 a2 a3) (cs : List Byte) :
    HashedCells array 1#32 cs a1 a2 a3 := by
  obtain ⟨h1, h2, h3⟩ := h
  rw [BitVec.umod_one] at h1 h2 h3
  constructor <;> rwa [BitVec.umod_one]

theorem HashedCells.unique {b1 b2 b3 : Addr} (h : HashedCells array n bs a1 a2 a3)
    (h' : HashedCells array n bs b1 b2 b3) : a1 = b1 ∧ a2 = b2 ∧ a3 = b3 :=
  ⟨Option.some.inj (h.cell1.symm.trans h'.cell1), Option.some.inj (h.cell2.symm.trans h'.cell2),
    Option.some.inj (h.cell3.symm.trans h'.cell3)⟩

/-- With capacity 1 an array that holds one string holds every string. -/
theorem Memory.holds_of_capacity_one (h : m.holds array 1#32 bs) (cs : List Byte) :
    m.holds array 1#32 cs := by
  unfold Memory.holds at h ⊢
  rwa [hashedIndices_one] at h ⊢

theorem HashedCells.mem_array (h : HashedCells array n bs a1 a2 a3) (hn : n ≠ 0) {a : Addr}
    (ha : a = a1 ∨ a = a2 ∨ a = a3) :
    array.toNat ≤ a.toNat ∧ a.toNat < array.toNat + (n.toNat + 7) / 8 := by
  obtain rfl | rfl | rfl := ha
  · exact byteAddr_mem_array (mod_lt_of_ne hn _) h.cell1
  · exact byteAddr_mem_array (mod_lt_of_ne hn _) h.cell2
  · exact byteAddr_mem_array (mod_lt_of_ne hn _) h.cell3

theorem HashedCells.holds_iff (h : HashedCells array n bs a1 a2 a3) :
    m.holds array n bs ↔
      m.bitSet a1 ((hash1 bs % n).toNat % 8) ∧ m.bitSet a2 ((hash2 bs % n).toNat % 8) ∧
        m.bitSet a3 ((hash3 bs % n).toNat % 8) := by
  simp [Memory.holds, hashedIndices, h.cell1, h.cell2, h.cell3]

/-- A first cell that is all 0 shows that the string is not held. -/
theorem HashedCells.not_holds_of_read_eq_zero (h : HashedCells array n bs a1 a2 a3)
    (h0 : m.read a1 = 0) : ¬ m.holds array n bs := by
  rw [h.holds_iff, Memory.bitSet, h0]
  simp

theorem Memory.setHashed_wf (hm : m.wf) (n : Word) (bs : List Byte) (a1 a2 a3 : Addr) :
    (m.setHashed n bs a1 a2 a3).wf :=
  Memory.setBitIn_wf (Memory.setBitIn_wf (Memory.setBitIn_wf hm _ _) _ _) _ _

theorem Memory.setHashed_read_other (m : Memory) (n : Word) (bs : List Byte) {b : Addr} (h1 : b ≠ a1)
    (h2 : b ≠ a2) (h3 : b ≠ a3) : (m.setHashed n bs a1 a2 a3).read b = m.read b := by
  rw [Memory.setHashed, Memory.setBitIn_read_other _ _ h3, Memory.setBitIn_read_other _ _ h2,
    Memory.setBitIn_read_other _ _ h1]

/-- Three different cells each have their one bit or-ed in. -/
theorem Memory.setHashed_read_cells (hm : m.wf) (n : Word) (bs : List Byte) (h12 : a1 ≠ a2)
    (h13 : a1 ≠ a3) (h23 : a2 ≠ a3) :
    (m.setHashed n bs a1 a2 a3).read a1 = m.read a1 ||| mask (hash1 bs % n) ∧
    (m.setHashed n bs a1 a2 a3).read a2 = m.read a2 ||| mask (hash2 bs % n) ∧
    (m.setHashed n bs a1 a2 a3).read a3 = m.read a3 ||| mask (hash3 bs % n) := by
  have hm1 := Memory.setBitIn_wf hm a1 (hash1 bs % n)
  have hm2 := Memory.setBitIn_wf hm1 a2 (hash2 bs % n)
  unfold Memory.setHashed
  refine ⟨?_, ?_, ?_⟩
  · rw [Memory.setBitIn_read_other _ _ h13, Memory.setBitIn_read_other _ _ h12,
      Memory.setBitIn_read_self hm]
  · rw [Memory.setBitIn_read_other _ _ h23, Memory.setBitIn_read_self hm1,
      Memory.setBitIn_read_other _ _ h12.symm]
  · rw [Memory.setBitIn_read_self hm2, Memory.setBitIn_read_other _ _ h23.symm,
      Memory.setBitIn_read_other _ _ h13.symm]

theorem Memory.bitSet_setHashed (hm : m.wf) {b : Addr} {k : Nat} :
    (m.setHashed n bs a1 a2 a3).bitSet b k ↔
      m.bitSet b k ∨ b = a1 ∧ k = (hash1 bs % n).toNat % 8 ∨ b = a2 ∧ k = (hash2 bs % n).toNat % 8 ∨
        b = a3 ∧ k = (hash3 bs % n).toNat % 8 := by
  have hm1 := Memory.setBitIn_wf hm a1 (hash1 bs % n)
  have hm2 := Memory.setBitIn_wf hm1 a2 (hash2 bs % n)
  rw [Memory.setHashed, Memory.bitSet_setBitIn hm2, Memory.bitSet_setBitIn hm1,
    Memory.bitSet_setBitIn hm, or_assoc, or_assoc]

theorem HashedCells.setHashed_holds (h : HashedCells array n bs a1 a2 a3) (hm : m.wf) :
    (m.setHashed n bs a1 a2 a3).holds array n bs := by
  simp [h.holds_iff, Memory.bitSet_setHashed hm]

/-- Where the three bits are 1 already, setting them changes nothing. -/
theorem HashedCells.setHashed_of_holds (h : HashedCells array n bs a1 a2 a3) (hm : m.wf)
    (hh : m.holds array n bs) : m.setHashed n bs a1 a2 a3 = m := by
  obtain ⟨h1, h2, h3⟩ := h.holds_iff.mp hh
  rw [Memory.setHashed, Memory.setBitIn_of_bitSet hm h1, Memory.setBitIn_of_bitSet hm h2,
    Memory.setBitIn_of_bitSet hm h3]

/-- A bit that is new after the three calls of `set_bit` is one of the three. -/
theorem HashedCells.new_bit (h : HashedCells array n bs a1 a2 a3) (hm : m.wf) {b : Addr} {k : Nat}
    (hnew : (m.setHashed n bs a1 a2 a3).bitSet b k) (hold : ¬ m.bitSet b k) :
    ∃ i ∈ hashedIndices n bs, byteAddr array i = some b ∧ k = i.toNat % 8 := by
  obtain ⟨rfl, hk⟩ | ⟨rfl, hk⟩ | ⟨rfl, hk⟩ := ((Memory.bitSet_setHashed hm).mp hnew).resolve_left hold
  · exact ⟨_, by simp [hashedIndices], h.cell1, hk⟩
  · exact ⟨_, by simp [hashedIndices], h.cell2, hk⟩
  · exact ⟨_, by simp [hashedIndices], h.cell3, hk⟩

end

/-! ### The examples of R121 and R122 -/

theorem hashedCells_apple :
    HashedCells 0x1000#32 1024#32 [0x61, 0x70, 0x70, 0x6C, 0x65] 0x1046#32 0x104B#32 0x1076#32 :=
  ⟨by decide, by decide, by decide⟩

theorem hashedCells_banana :
    HashedCells 0x1000#32 1024#32 [0x62, 0x61, 0x6E, 0x61, 0x6E, 0x61] 0x1004#32 0x105C#32 0x104F#32 :=
  ⟨by decide, by decide, by decide⟩

/-! ## The answer of CHECK -/

theorem response_inj_right {e : Err} {r r' : Word} : response e r = response e r' ↔ r = r' :=
  ⟨fun h => by simpa using congrArg resultOf h, congrArg _⟩

/-- What CHECK answers from the bits of the three indices (42_string_ops.md R122). -/
def checkAnswer (m : Memory) (n : Word) (bs : List Byte) (a1 a2 a3 : Addr) : Word :=
  checkResult .ok (m.bitIn a1 (hash1 bs % n)) (m.bitIn a2 (hash2 bs % n)) (m.bitIn a3 (hash3 bs % n))

theorem HashedCells.checkAnswer_eq_one_iff {array a1 a2 a3 : Addr} {n : Word} {bs : List Byte}
    {m : Memory} (h : HashedCells array n bs a1 a2 a3) :
    checkAnswer m n bs a1 a2 a3 = 1 ↔ m.holds array n bs := by
  rw [h.holds_iff, ← Memory.bitIn_eq_one_iff, ← Memory.bitIn_eq_one_iff, ← Memory.bitIn_eq_one_iff]
  simp [checkAnswer, checkResult]

/-! ## The two cases of a string operation -/

/-- The shape the effects of INSERT and CHECK share once the string has been read: the null test, and
then the three addressed cells (42_string_ops.md R121, R122). -/
def nullThenCells (array : Addr) (i1 i2 i3 : Word) (onNull : Effect)
    (atBits : Addr → Addr → Addr → Effect) : Except Refusal Effect :=
  if array = Config.null then .ok onNull
  else atCell array i1 fun a1 => atCell array i2 fun a2 => atCell array i3 fun a3 =>
    .ok (atBits a1 a2 a3)

section
variable {array strp : Addr} {nbits : Word} {bs : List Byte} {m : Memory} {s t : State} {f : Effect}

theorem nullThenCells_eq_ok {onNull : Effect} {atBits : Addr → Addr → Addr → Effect} :
    nullThenCells array (hash1 bs % nbits) (hash2 bs % nbits) (hash3 bs % nbits) onNull atBits = .ok f ↔
      array = Config.null ∧ onNull = f ∨
      array ≠ Config.null ∧ ∃ a1 a2 a3, HashedCells array nbits bs a1 a2 a3 ∧ atBits a1 a2 a3 = f := by
  unfold nullThenCells
  split_ifs with ha
  · simp [ha]
  · simp only [ha, atCell_eq_ok, Except.ok.injEq]
    constructor
    · rintro ⟨a1, h1, a2, h2, a3, h3, rfl⟩
      exact .inr ⟨ha, a1, a2, a3, ⟨h1, h2, h3⟩, rfl⟩
    · rintro (⟨h, -⟩ | ⟨-, a1, a2, a3, ⟨h1, h2, h3⟩, rfl⟩)
      · cases h
      · exact ⟨a1, h1, a2, h2, a3, h3, rfl⟩

/-- The accesses of INSERT on an array that is there (42_string_ops.md R121). -/
def insertAccesses (m : Memory) (strp : Addr) (n : Word) (bs : List Byte) (a1 a2 a3 : Addr) : List Access :=
  stringReads strp bs ++ setAccesses m a1 (hash1 bs % n) ++
    setAccesses (m.setBitIn a1 (hash1 bs % n)) a2 (hash2 bs % n) ++
    setAccesses ((m.setBitIn a1 (hash1 bs % n)).setBitIn a2 (hash2 bs % n)) a3 (hash3 bs % n)

/-- The accesses of CHECK on an array that is there (42_string_ops.md R122). -/
def checkAccesses (m : Memory) (strp : Addr) (bs : List Byte) (a1 a2 a3 : Addr) : List Access :=
  stringReads strp bs ++ [.read a1 (m.read a1), .read a2 (m.read a2), .read a3 (m.read a3)]

/-- All that INSERT can do when it completes. -/
theorem insertEffect_eq_ok :
    commandEffect (.insert array strp nbits) m = .ok f ↔
      ∃ bs, m.string strp = some bs ∧ nbits ≠ 0 ∧
        (array = Config.null ∧ ⟨m, stringReads strp bs, .nullStorage, 0⟩ = f ∨
          array ≠ Config.null ∧ ∃ a1 a2 a3, HashedCells array nbits bs a1 a2 a3 ∧
            ⟨m.setHashed nbits bs a1 a2 a3, insertAccesses m strp nbits bs a1 a2 a3, .ok, 0⟩ = f) :=
  stringOpEffect_eq_ok.trans <| exists_congr fun _ => and_congr_right fun _ => and_congr_right fun _ =>
    nullThenCells_eq_ok

/-- All that CHECK can do when it completes. -/
theorem checkEffect_eq_ok :
    commandEffect (.check array strp nbits) m = .ok f ↔
      ∃ bs, m.string strp = some bs ∧ nbits ≠ 0 ∧
        (array = Config.null ∧ ⟨m, stringReads strp bs, .nullStorage, Config.sentinel⟩ = f ∨
          array ≠ Config.null ∧ ∃ a1 a2 a3, HashedCells array nbits bs a1 a2 a3 ∧
            ⟨m, checkAccesses m strp bs a1 a2 a3, .ok, checkAnswer m nbits bs a1 a2 a3⟩ = f) :=
  stringOpEffect_eq_ok.trans <| exists_congr fun _ => and_congr_right fun _ => and_congr_right fun _ =>
    nullThenCells_eq_ok

section
variable (hs : s.mem.string strp = some bs) (hn : nbits ≠ 0)
include hs hn

theorem exec_insert_of_null (ha : array = Config.null) :
    exec (.insert array strp nbits) s =
      .next (completed s.mem (stringReads strp bs) .nullStorage 0 s) :=
  exec_eq_next.mpr ⟨_, insertEffect_eq_ok.mpr ⟨bs, hs, hn, .inl ⟨ha, rfl⟩⟩, rfl⟩

theorem exec_check_of_null (ha : array = Config.null) :
    exec (.check array strp nbits) s =
      .next (completed s.mem (stringReads strp bs) .nullStorage Config.sentinel s) :=
  exec_eq_next.mpr ⟨_, checkEffect_eq_ok.mpr ⟨bs, hs, hn, .inl ⟨ha, rfl⟩⟩, rfl⟩

variable {a1 a2 a3 : Addr} (ha : array ≠ Config.null) (hc : HashedCells array nbits bs a1 a2 a3)
include ha hc

theorem exec_insert_of_cells :
    exec (.insert array strp nbits) s =
      .next (completed (s.mem.setHashed nbits bs a1 a2 a3)
        (insertAccesses s.mem strp nbits bs a1 a2 a3) .ok 0 s) :=
  exec_eq_next.mpr ⟨_, insertEffect_eq_ok.mpr ⟨bs, hs, hn, .inr ⟨ha, a1, a2, a3, hc, rfl⟩⟩, rfl⟩

theorem exec_check_of_cells :
    exec (.check array strp nbits) s =
      .next (completed s.mem (checkAccesses s.mem strp bs a1 a2 a3) .ok
        (checkAnswer s.mem nbits bs a1 a2 a3) s) :=
  exec_eq_next.mpr ⟨_, checkEffect_eq_ok.mpr ⟨bs, hs, hn, .inr ⟨ha, a1, a2, a3, hc, rfl⟩⟩, rfl⟩

/-- CHECK answers 1 exactly when the three bits are 1 (42_string_ops.md R124). -/
theorem lastResponse_check_eq_one_iff :
    lastResponse (exec (.check array strp nbits) s) = some (response .ok 1) ↔
      s.mem.holds array nbits bs := by
  rw [lastResponse_of_completed (exec_check_of_cells hs hn ha hc), Option.some.injEq, response_inj_right,
    hc.checkAnswer_eq_one_iff]

/-- CHECK answers 0 when one of the three bits is 0. -/
theorem lastResponse_check_of_not_holds (hh : ¬ s.mem.holds array nbits bs) :
    lastResponse (exec (.check array strp nbits) s) = some (response .ok 0) := by
  have hzero : checkAnswer s.mem nbits bs a1 a2 a3 = 0 :=
    (checkResult_ok_eq_zero_or_one _ _ _).resolve_right (hh ∘ hc.checkAnswer_eq_one_iff.mp)
  rw [lastResponse_of_completed (exec_check_of_cells hs hn ha hc), hzero]

end

/-- INSERT and CHECK with capacity 0 have no meaning (42_string_ops.md R126). -/
theorem stringOpEffect_of_capacity_zero
    {cont : Word → Word → Word → List Access → Memory → Except Refusal Effect}
    (hs : m.string strp = some bs) : stringOpEffect cont strp 0 m = .error .capacityZero := by
  rw [stringOpEffect, hs]
  exact if_pos rfl

end

/-! ## What the events of a run keep -/

/-- A command, legal or not, keeps the canonical form of memory and every bit that is 1. -/
theorem runCommand_keeps_wf_and_bits {c : Command} {s t : State} (hm : s.mem.wf)
    (h : runCommand c s = .next t) :
    t.mem.wf ∧ ∀ b k, s.mem.bitSet b k → t.mem.bitSet b k := by
  by_cases hill : ∀ i, decode c ≠ .ok i
  · obtain rfl : completed s.mem [] .illegalCmd Config.sentinel s = t :=
      Host.Outcome.next.inj ((runCommand_of_illegal hill s).symm.trans h)
    exact ⟨hm, fun _ _ => id⟩
  · obtain ⟨i, hi⟩ := not_forall_not.mp hill
    obtain ⟨f, hf, rfl⟩ := exec_completed ((runCommand_of_decode_ok hi s).symm.trans h)
    exact ⟨hf.performs.foldl_apply ▸ foldl_apply_wf hm f.made, fun _ _ => hf.performs.mono hm⟩

/-- An event that is no host write to cell `b` keeps the bits of `b` that are 1. -/
theorem Event.effect_keeps_wf_and_bits {e : Event} {s t : State} {b : Addr} (hm : s.mem.wf)
    (hb : ∀ v, e ≠ .write b v) (h : e.effect s = .next t) :
    t.mem.wf ∧ ∀ k, s.mem.bitSet b k → t.mem.bitSet b k := by
  cases e with
  | command c => exact (runCommand_keeps_wf_and_bits hm h).imp_right fun hk => hk b
  | write a v =>
    cases h
    have hne : b ≠ a := by
      rintro rfl
      exact hb v rfl
    refine ⟨Memory.write_wf hm a v, fun k hk => ?_⟩
    rwa [Memory.bitSet, hostWrite_mem, Memory.read_write_other _ _ hne]
  | reset =>
    cases h
    exact ⟨hm, fun _ => id⟩

/-- Events that spare an array keep the bits of its cells that are 1. -/
theorem runEvents_keeps_bit {es : List Event} {s t : State} {array b : Addr} {n : Word} {k : Nat}
    (hm : s.mem.wf) (hspare : sparesArray array n es) (hb : inArray array n b = true)
    (h : runEvents es s = .next t) (hset : s.mem.bitSet b k) : t.mem.bitSet b k := by
  induction es generalizing s with
  | nil =>
    cases h
    exact hset
  | cons e es ih =>
    obtain ⟨s', he, hes⟩ := runEvents_cons_eq_next.mp h
    have hne : ∀ v, e ≠ .write b v := by
      rintro v rfl
      simp [hspare b v List.mem_cons_self] at hb
    obtain ⟨hm', hkeep⟩ := Event.effect_keeps_wf_and_bits hm hne he
    exact ih hm' (fun a v hav => hspare a v (List.mem_cons_of_mem e hav)) hes (hkeep k hset)

/-- A string that an array holds is held after any events that spare the array. -/
theorem runEvents_keeps_holds {es : List Event} {s t : State} {array : Addr} {n : Word}
    {bs : List Byte} (hm : s.mem.wf) (ha : array ≠ Config.null) (hn : n ≠ 0)
    (hspare : sparesArray array n es) (h : runEvents es s = .next t) (hh : s.mem.holds array n bs) :
    t.mem.holds array n bs := by
  intro i hi a hia
  have hin := inArray_of_byteAddr ha (lt_of_mem_hashedIndices hn hi) hia
  exact runEvents_keeps_bit hm hspare hin h (hh i hi a hia)

/-! ## The obligations -/

/-- Settles O31: INSERT leaves the three bits at 1, the events keep them, and CHECK answers what they say. -/
theorem noFalseNegatives : Obligations.NoFalseNegatives := by
  intro s array p nbits bs hm ha hn hf hs
  obtain ⟨a1, a2, a3, hc⟩ := exists_hashedCells_of_fits hn hf bs
  refine ⟨_, exec_insert_of_cells hs hn ha hc, fun between u q hspare hrun hq => ?_⟩
  have hwf := Memory.setHashed_wf hm nbits bs a1 a2 a3
  exact (lastResponse_check_eq_one_iff hq hn ha hc).mpr
    (runEvents_keeps_holds hwf ha hn hspare hrun (hc.setHashed_holds hm))

/-- Settles O28: one case of INSERT after the other, that bits commute, and the example in its three
cells. -/
theorem insertSetsTheThreeBits : Obligations.InsertSetsTheThreeBits := by
  refine ⟨fun _ => (extractLsb'_low_eq_iff_decode (.insert ..) rfl rfl rfl).mp,
    fun s array strp nbits bs hs hn => ⟨exec_insert_of_null hs hn,
      fun ha a1 a2 a3 h1 h2 h3 => exec_insert_of_cells hs hn ha ⟨h1, h2, h3⟩⟩,
    fun m a b i j hm => Memory.setBitIn_comm hm a b i j, fun s hm hs h0 => ?_⟩
  obtain ⟨hr1, hr2, hr3⟩ := Memory.setHashed_read_cells hm 1024#32 [0x61, 0x70, 0x70, 0x6C, 0x65]
    (a1 := 0x1046#32) (a2 := 0x104B#32) (a3 := 0x1076#32) (by decide) (by decide) (by decide)
  rw [h0 _ (by decide) (by decide)] at hr1 hr2 hr3
  exact ⟨_, exec_insert_of_cells hs (by decide) (by decide) hashedCells_apple, rfl,
    hr1.trans (by decide), hr2.trans (by decide), hr3.trans (by decide),
    fun _ => Memory.setHashed_read_other s.mem _ _⟩

/-- Settles O29: one case of CHECK after the other; a first cell that is 0 answers 0, and "apple" is
held by its three bytes. -/
theorem checkReadsTheThreeBits : Obligations.CheckReadsTheThreeBits := by
  refine ⟨fun _ => (extractLsb'_low_eq_iff_decode (.check ..) rfl rfl rfl).mp,
    fun s array strp nbits bs hs hn => ⟨exec_check_of_null hs hn,
      fun ha a1 a2 a3 h1 h2 h3 => exec_check_of_cells hs hn ha ⟨h1, h2, h3⟩⟩,
    fun s array strp nbits ha hn hf hterm h0 => ?_, fun s hs h1 h2 h3 => ⟨?_, ?_⟩, fun s hs h1 => ?_⟩
  · obtain ⟨bs, hs⟩ := Memory.exists_string_of_terminated hterm
    obtain ⟨a1, a2, a3, hc⟩ := exists_hashedCells_of_fits hn hf bs
    obtain ⟨hlow, hhigh⟩ := hc.mem_array hn (.inl rfl)
    exact lastResponse_check_of_not_holds hs hn ha hc (hc.not_holds_of_read_eq_zero (h0 a1 hlow hhigh))
  · have hheld : s.mem.holds 0x1000#32 1024#32 [0x61, 0x70, 0x70, 0x6C, 0x65] := by
      rw [hashedCells_apple.holds_iff, Memory.bitSet, Memory.bitSet, Memory.bitSet, h1, h2, h3]
      decide
    exact (lastResponse_check_eq_one_iff hs (by decide) (by decide) hashedCells_apple).mpr hheld
  · exact lastResponse_of_completed (exec_check_of_null hs (by decide) rfl)
  · exact lastResponse_check_of_not_holds hs (by decide) (by decide) hashedCells_banana
      (hashedCells_banana.not_holds_of_read_eq_zero h1)

/-- Settles O32: with capacity 1 every string has the cells and the bits of the one inserted. -/
theorem falsePositivesArePartOfTheBehaviour : Obligations.FalsePositivesArePartOfTheBehaviour := by
  refine ⟨fun s array strp nbits bs a1 a2 a3 ha hn hs h1 h2 h3 => ?_,
    fun s t array p q cs hm ha h hq => ?_⟩
  · have hc : HashedCells array nbits bs a1 a2 a3 := ⟨h1, h2, h3⟩
    exact (lastResponse_check_eq_one_iff hs hn ha hc).trans hc.holds_iff
  · obtain ⟨f, hf, rfl⟩ := exec_eq_next.mp h
    obtain ⟨bs, -, hn, ⟨hnull, -⟩ | ⟨-, a1, a2, a3, hc, rfl⟩⟩ := insertEffect_eq_ok.mp hf
    · exact absurd hnull ha
    · exact (lastResponse_check_eq_one_iff hq hn ha (hc.of_capacity_one cs)).mpr
        (Memory.holds_of_capacity_one (hc.setHashed_holds hm) cs)

/-- Settles O33: the error is fixed by which of the two cases holds. -/
theorem stringOpsNeverReportIndexRange : Obligations.StringOpsNeverReportIndexRange := by
  rintro s t array strp nbits (h | h)
  · obtain ⟨f, hf, rfl⟩ := exec_eq_next.mp h
    obtain ⟨bs, -, -, ⟨ha, rfl⟩ | ⟨ha, a1, a2, a3, -, rfl⟩⟩ := insertEffect_eq_ok.mp hf
    · exact ⟨_, _, rfl, .inr ⟨ha, rfl⟩⟩
    · exact ⟨_, _, rfl, .inl ⟨ha, rfl⟩⟩
  · obtain ⟨f, hf, rfl⟩ := exec_eq_next.mp h
    obtain ⟨bs, -, -, ⟨ha, rfl⟩ | ⟨ha, a1, a2, a3, -, rfl⟩⟩ := checkEffect_eq_ok.mp hf
    · exact ⟨_, _, rfl, .inr ⟨ha, rfl⟩⟩
    · exact ⟨_, _, rfl, .inl ⟨ha, rfl⟩⟩

/-- Settles O35: the memory left has the three bits set and no other changed; the second INSERT finds
them at 1. -/
theorem insertOnlyAdds : Obligations.InsertOnlyAdds := by
  intro s t array strp nbits bs hm ha hs h
  obtain ⟨f, hf, rfl⟩ := exec_eq_next.mp h
  obtain ⟨cs, hcs, hn, ⟨hnull, -⟩ | ⟨-, a1, a2, a3, hc, rfl⟩⟩ := insertEffect_eq_ok.mp hf
  · exact absurd hnull ha
  obtain rfl : bs = cs := Option.some.inj (hs.symm.trans hcs)
  refine ⟨fun b k hb => (Memory.bitSet_setHashed hm).mpr (.inl hb), fun b k hnew hold => ?_,
    fun b hb => ?_, fun hs' => ⟨_, exec_insert_of_cells hs' hn ha hc, ?_⟩⟩
  · obtain ⟨i, hi, hib, hk⟩ := hc.new_bit hm hnew hold
    exact ⟨i, hi, lt_of_mem_hashedIndices hn hi, hib, hk⟩
  · have hne {a : Addr} (h : a = a1 ∨ a = a2 ∨ a = a3) : b ≠ a := by
      rintro rfl
      exact hb (hc.mem_array hn h)
    exact Memory.setHashed_read_other s.mem _ _ (hne (.inl rfl)) (hne (.inr (.inl rfl)))
      (hne (.inr (.inr rfl)))
  · exact hc.setHashed_of_holds (Memory.setHashed_wf hm ..) (hc.setHashed_holds hm)

/-- Settles O36: CHECK stores no bit, so the second one finds the memory of the first. -/
theorem checkChangesNothing : Obligations.CheckChangesNothing := by
  intro s t array strp nbits h
  obtain ⟨f, hf, rfl⟩ := exec_eq_next.mp h
  have hmem : f.mem = s.mem := (commandEffect_sound hf).performs.mem_eq_of_not_stores (by simp [Stores])
  exact ⟨hmem, _, exec_eq_next.mpr ⟨f, hmem.symm ▸ hf, rfl⟩, hmem, by simp⟩

/-- Settles O41: on a null array memory is untouched, and otherwise three cells are written. -/
theorem frameOfInsert : Obligations.FrameOfInsert := by
  intro s t array strp nbits bs hs h
  obtain ⟨f, hf, rfl⟩ := exec_eq_next.mp h
  obtain ⟨cs, hcs, -, hcase⟩ := insertEffect_eq_ok.mp hf
  obtain rfl : bs = cs := Option.some.inj (hs.symm.trans hcs)
  obtain ⟨ha, rfl⟩ | ⟨ha, a1, a2, a3, hc, rfl⟩ := hcase
  · exact ⟨fun _ _ _ _ _ _ _ _ _ _ => rfl, fun _ _ => rfl, rfl, rfl, ⟨_, rfl⟩, _, rfl⟩
  · refine ⟨fun b1 b2 b3 h1 h2 h3 b => ?_, fun hnull => absurd hnull ha, rfl, rfl, ⟨_, rfl⟩, _, rfl⟩
    obtain ⟨rfl, rfl, rfl⟩ := hc.unique ⟨h1, h2, h3⟩
    exact Memory.setHashed_read_other s.mem _ _

/-- Settles O34: where a string stands the capacity is refused, and elsewhere the string is. -/
theorem capacityZeroHasNoMeaning : Obligations.CapacityZeroHasNoMeaning := by
  intro s array strp
  cases hs : s.mem.string strp with
  | none => exact ⟨⟨_, exec_of_string_eq_none rfl hs⟩, ⟨_, exec_of_string_eq_none rfl hs⟩, by simp⟩
  | some bs =>
    have hinsert : exec (.insert array strp 0) s = .refused .capacityZero :=
      exec_eq_refused.mpr (stringOpEffect_of_capacity_zero hs)
    have hcheck : exec (.check array strp 0) s = .refused .capacityZero :=
      exec_eq_refused.mpr (stringOpEffect_of_capacity_zero hs)
    exact ⟨⟨_, hinsert⟩, ⟨_, hcheck⟩, fun _ _ => ⟨hinsert, hcheck⟩⟩

end Sys2Proof.Machine
end

section
/-! SUPPORT. Errors (60_exceptions.md R145, R146): the two cases of `raise`, and the obligations on which
error a command reports. -/

namespace Sys2Proof.Machine

/-! ## The two cases of `raise` -/

/-- The first error of a command is recorded (60_exceptions.md R145). -/
theorem raiseErr_of_ok {s : State} (h : s.work.err = .ok) (e : Err) : raiseErr e s = setErr e s :=
  if_pos h

/-- A later error of a command is not (60_exceptions.md R145). -/
theorem raiseErr_of_ne_ok {s : State} (h : s.work.err ≠ .ok) (e : Err) : raiseErr e s = s :=
  if_neg h

/-! ## The obligations -/

/-- Settles O47: one case of `raise` after the other; the codes are those of R140. -/
theorem raiseRecordsTheFirstError : Obligations.RaiseRecordsTheFirstError :=
  fun e _ => ⟨fun hok => raiseErr_of_ok hok e, fun hne => raiseErr_of_ne_ok hne e, rfl, rfl⟩

/-- Settles O48: on a null array the bit commands answer before they look at the index, and an illegal
descriptor is answered before any of its other fields is read. -/
theorem errorPriority : Obligations.ErrorPriority :=
  ⟨fun s index nbits _ =>
    ⟨lastResponse_of_completed (exec_setbit_of_null rfl index nbits s),
      lastResponse_of_completed (exec_getbit_of_null rfl index nbits s)⟩,
    fun s _ hill => runCommand_of_illegal hill s⟩

end Sys2Proof.Machine
end

section
/-! SUPPORT. What the host's inputs do to a command in flight (70_reset_and_hazards.md R160 to R173): the
step on RESET and on a host write, on which cells an answer rests, when a command completes and how many
accesses it makes; and the obligations on them. -/

namespace Sys2Proof.Machine

/-! ## The step on an input that does not wait -/

/-- The machine whose run has ended waits. -/
theorem step_of_ended {s : State} (h : s.ended) : step s = .next s := by
  obtain ⟨hi, hn⟩ := h
  have hstep : step s = idleStep s := by unfold step engineStep; rw [hi]
  rw [hstep]
  unfold idleStep
  rw [hn]

section
variable {s : State} {c : Command} {rest : List HostInput}

theorem step_of_busy (hb : s.engine = .busy c) : step s = busyStep c s := by
  unfold step engineStep
  rw [hb]

/-- RESET abandons the command in flight (70_reset_and_hazards.md R161). -/
theorem step_of_busy_resetNow {done : Nat} (hb : s.engine = .busy c)
    (hn : s.inputs = .resetNow done :: rest) :
    step s = abandon done { s with inputs := rest } (runCommand c { s with inputs := rest }) := by
  rw [step_of_busy hb]
  unfold busyStep
  rw [hn]

/-- A host write that does not wait for the command in flight (70_reset_and_hazards.md R165). -/
theorem step_of_busy_writeNow {a : Addr} {v : Byte} (hb : s.engine = .busy c)
    (hn : s.inputs = .writeNow a v :: rest) :
    step s = if inUse c s.mem a then .fault .foreignWrite
      else .next (hostWrite a v { s with inputs := rest }) := by
  rw [step_of_busy hb]
  unfold busyStep
  rw [hn]

end

/-- Of a completed command RESET leaves the first `done` accesses, and no response. -/
theorem abandon_completed (done : Nat) (s : State) (m : Memory) (made : List Access) (e : Err) (r : Word) :
    abandon done s (.next (completed m made e r s)) =
      .next (applyReset { s with
        mem := (made.take done).foldl Access.apply s.mem
        bus := s.bus ++ made.take done }) := by
  simp [abandon]

/-! ## The first accesses of a command -/

/-- However many of its accesses a command has performed, a bit that was set is still set. -/
theorem Performs.mono_take {i : Instr} {m m' : Memory} {l : List Access} (h : Performs i m l m')
    (hm : m.wf) (done : Nat) {b : Addr} {k : Nat} (hb : m.bitSet b k) :
    ((l.take done).foldl Access.apply m).bitSet b k := by
  induction h generalizing done with
  | done m => simpa using hb
  | read a _ ih =>
    cases done with
    | zero => exact hb
    | succ done => exact ih hm done hb
  | set _ _ ih =>
    match done with
    | 0 | 1 => exact hb
    | done + 2 => exact ih (Memory.setBitIn_wf hm _ _) done (Memory.setBitIn_mono hm _ _ _ hb)

theorem descriptorEffect_mono_take {c : Command} {m : Memory} {f : Effect} (hm : m.wf)
    (h : descriptorEffect c m = .ok f) (done : Nat) {b : Addr} {k : Nat} (hb : m.bitSet b k) :
    ((f.made.take done).foldl Access.apply m).bitSet b k := by
  unfold descriptorEffect at h
  split at h
  · exact (commandEffect_sound h).performs.mono_take hm done hb
  · cases h
    simpa using hb

/-! ## The cells an answer rests on -/

/-- A host write outside the cells of a string, or of the cells searched for one, leaves it as it was. -/
theorem Memory.string_write_of_not_inString {m : Memory} {p a : Addr} (v : Byte)
    (h : inString m p a = false) : (m.write a v).string p = m.string p := by
  unfold inString at h
  cases hs : m.string p with
  | none =>
    have hlt : ¬ p.toNat ≤ a.toNat := by simpa [hs] using h
    refine Memory.string_eq_none.mpr fun q hq => ?_
    rw [Memory.read_write_other m v (by rintro rfl; exact hlt hq)]
    exact Memory.string_eq_none.mp hs q hq
  | some bs =>
    have hout : ¬ (p.toNat ≤ a.toNat ∧ a.toNat ≤ p.toNat + bs.length) := by
      rw [hs] at h
      exact of_decide_eq_false h
    obtain ⟨hlen, hbytes, hnull⟩ := Memory.string_eq_some.mp hs
    have hkept (k : Nat) (hk : k ≤ bs.length) :
        (m.write a v).read (p + BitVec.ofNat 32 k) = m.read (p + BitVec.ofNat 32 k) := by
      have hsum : (p + BitVec.ofNat 32 k).toNat = p.toNat + k := by
        rw [BitVec.toNat_add, BitVec.toNat_ofNat]; omega
      refine Memory.read_write_other m v ?_
      rintro rfl
      exact hout (by omega)
    refine Memory.string_eq_some.mpr ⟨hlen, fun k hk => ?_, ?_⟩
    · rw [hkept k hk.le]
      exact hbytes k hk
    · rw [hkept _ le_rfl]
      exact hnull

/-- A host write outside the bit array leaves its bits as they were. -/
theorem Memory.bitIn_write_of_not_inArray {m : Memory} {array a b : Addr} {index n : Word} (v : Byte)
    (ha : array ≠ Config.null) (hi : index < n) (hb : byteAddr array index = some b)
    (h : inArray array n a = false) : (m.write a v).bitIn b index = m.bitIn b index := by
  have hne : b ≠ a := by
    rintro rfl
    simp [inArray_of_byteAddr ha hi hb] at h
  rw [Memory.bitIn, Memory.read_write_other m v hne, ← Memory.bitIn]

/-- The response of a command with the given effect; none where the command has no meaning. -/
def answerOf (e : Except Refusal Effect) : Option Response :=
  e.toOption.map fun f => response f.err f.result

theorem lastResponse_outcomeOf (s : State) (e : Except Refusal Effect) :
    lastResponse (outcomeOf s e) = answerOf e := by
  cases e with
  | ok f => exact List.getLast?_concat
  | error r => rfl

section
variable {array strp a : Addr} {index nbits : Word} {m : Memory} (v : Byte)

theorem answerOf_atCell_congr {cont cont' : Addr → Except Refusal Effect}
    (h : ∀ b, byteAddr array index = some b → answerOf (cont b) = answerOf (cont' b)) :
    answerOf (atCell array index cont) = answerOf (atCell array index cont') := by
  unfold atCell
  cases hb : byteAddr array index with
  | none => rfl
  | some b => exact h b hb

theorem answerOf_hashEffect_write {hash : List Byte → Word} (hs : inString m strp a = false) :
    answerOf (hashEffect hash strp (m.write a v)) = answerOf (hashEffect hash strp m) := by
  unfold hashEffect
  rw [Memory.string_write_of_not_inString v hs]
  cases m.string strp <;> rfl

/-- SETBIT answers by its operands alone. -/
theorem answerOf_setbitEffect_congr (m' : Memory) :
    answerOf (setbitEffect array index nbits m') = answerOf (setbitEffect array index nbits m) := by
  unfold setbitEffect
  split_ifs with ha hi
  · rfl
  · rfl
  · exact answerOf_atCell_congr fun _ _ => rfl

theorem answerOf_getbitEffect_write (h : inArray array nbits a = false) :
    answerOf (getbitEffect array index nbits (m.write a v)) =
      answerOf (getbitEffect array index nbits m) := by
  unfold getbitEffect
  split_ifs with ha hi
  · rfl
  · rfl
  · refine answerOf_atCell_congr fun b hb => ?_
    rw [Memory.bitIn_write_of_not_inArray v ha (BitVec.not_le.mp hi) hb h]
    rfl

theorem answerOf_stringOpEffect_write
    {cont : Word → Word → Word → List Access → Memory → Except Refusal Effect}
    (hs : inString m strp a = false)
    (hcont : ∀ i1 i2 i3 reads, i1 < nbits → i2 < nbits → i3 < nbits →
      answerOf (cont i1 i2 i3 reads (m.write a v)) = answerOf (cont i1 i2 i3 reads m)) :
    answerOf (stringOpEffect cont strp nbits (m.write a v)) = answerOf (stringOpEffect cont strp nbits m) := by
  unfold stringOpEffect
  rw [Memory.string_write_of_not_inString v hs]
  cases m.string strp with
  | none => rfl
  | some bs =>
    by_cases hn : nbits = 0
    · simp only [if_pos hn]
    · simp only [if_neg hn]
      exact hcont _ _ _ _ (mod_lt_of_ne hn _) (mod_lt_of_ne hn _) (mod_lt_of_ne hn _)

variable {i1 i2 i3 : Word} {reads : List Access}

/-- Once its indices are formed, INSERT answers by its operands alone. -/
theorem answerOf_insertAtEffect_congr (m' : Memory) :
    answerOf (insertAtEffect array i1 i2 i3 reads m') =
      answerOf (insertAtEffect array i1 i2 i3 reads m) := by
  unfold insertAtEffect
  split_ifs with ha
  · rfl
  · exact answerOf_atCell_congr fun _ _ => answerOf_atCell_congr fun _ _ =>
      answerOf_atCell_congr fun _ _ => rfl

theorem answerOf_checkAtEffect_write (h1 : i1 < nbits) (h2 : i2 < nbits) (h3 : i3 < nbits)
    (h : inArray array nbits a = false) :
    answerOf (checkAtEffect array i1 i2 i3 reads (m.write a v)) =
      answerOf (checkAtEffect array i1 i2 i3 reads m) := by
  unfold checkAtEffect
  split_ifs with ha
  · rfl
  · refine answerOf_atCell_congr fun b1 hb1 => answerOf_atCell_congr fun b2 hb2 =>
      answerOf_atCell_congr fun b3 hb3 => ?_
    rw [Memory.bitIn_write_of_not_inArray v ha h1 hb1 h, Memory.bitIn_write_of_not_inArray v ha h2 hb2 h,
      Memory.bitIn_write_of_not_inArray v ha h3 hb3 h]
    rfl

/-- A command answers by the cells of its string and of its bit array. -/
theorem answerOf_commandEffect_write {i : Instr} (hs : i.readsString → inString m i.arg a = false)
    (hu : i.usesArray → inArray i.array i.nbits a = false) :
    answerOf (commandEffect i (m.write a v)) = answerOf (commandEffect i m) := by
  cases i with
  | hash1 | hash2 | hash3 => exact answerOf_hashEffect_write v (hs rfl)
  | setbit => exact answerOf_setbitEffect_congr _
  | getbit => exact answerOf_getbitEffect_write v (hu rfl)
  | insert =>
    exact answerOf_stringOpEffect_write v (hs rfl) fun _ _ _ _ _ _ _ => answerOf_insertAtEffect_congr _
  | check =>
    exact answerOf_stringOpEffect_write v (hs rfl) fun _ _ _ _ h1 h2 h3 =>
      answerOf_checkAtEffect_write v h1 h2 h3 (hu rfl)

/-- A descriptor, legal or not, is answered alike after a host write to a cell it does not use. -/
theorem answerOf_descriptorEffect_write {c : Command} (h : inUse c m a = false) :
    answerOf (descriptorEffect c (m.write a v)) = answerOf (descriptorEffect c m) := by
  unfold inUse at h
  unfold descriptorEffect
  cases hd : decode c with
  | error e => rfl
  | ok i =>
    obtain ⟨hs, hu⟩ : (i.readsString → inString m i.arg a = false) ∧
        (i.usesArray → inArray i.array i.nbits a = false) := by simpa [hd] using h
    exact answerOf_commandEffect_write v hs hu

end

/-! ## When a command completes, and after how many accesses -/

/-- A bit primitive completes where its array is absent or fits. -/
theorem exists_nullThenRange_eq_ok {array : Addr} {nbits : Word}
    (h : array = Config.null ∨ arrayFits array nbits) (index : Word) (onNull onRange : Effect)
    (atBit : Addr → Effect) : ∃ f, nullThenRange array index nbits onNull onRange atBit = .ok f := by
  unfold nullThenRange
  split_ifs with ha hi
  · exact ⟨_, rfl⟩
  · exact ⟨_, rfl⟩
  · obtain ⟨a, hb⟩ := byteAddr_of_fits (h.resolve_left ha) (BitVec.not_le.mp hi)
    exact ⟨_, atCell_of_byteAddr hb⟩

/-- The rest of a string operation completes where its array is absent or fits. -/
theorem exists_nullThenCells_eq_ok {array : Addr} {nbits : Word} (hn : nbits ≠ 0)
    (h : array = Config.null ∨ arrayFits array nbits) (bs : List Byte) (onNull : Effect)
    (atBits : Addr → Addr → Addr → Effect) :
    ∃ f, nullThenCells array (hash1 bs % nbits) (hash2 bs % nbits) (hash3 bs % nbits) onNull atBits =
      .ok f := by
  by_cases ha : array = Config.null
  · exact ⟨_, nullThenCells_eq_ok.mpr (.inl ⟨ha, rfl⟩)⟩
  · obtain ⟨a1, a2, a3, hc⟩ := exists_hashedCells_of_fits hn (h.resolve_left ha) bs
    exact ⟨_, nullThenCells_eq_ok.mpr (.inr ⟨ha, a1, a2, a3, hc, rfl⟩)⟩

/-- A command has an effect where the host's duties are met. -/
theorem exists_commandEffect_of_dutiesMet {i : Instr} {m : Memory} (h : dutiesMet m i) :
    ∃ f, commandEffect i m = .ok f := by
  cases i with
  | hash1 | hash2 | hash3 =>
    obtain ⟨bs, hs⟩ := Memory.exists_string_of_terminated h
    exact ⟨_, hashEffect_eq_ok.mpr ⟨bs, hs, rfl⟩⟩
  | setbit | getbit => exact exists_nullThenRange_eq_ok h ..
  | insert | check =>
    obtain ⟨hterm, hn, ha⟩ := h
    obtain ⟨bs, hs⟩ := Memory.exists_string_of_terminated hterm
    obtain ⟨f, hf⟩ := exists_nullThenCells_eq_ok hn ha bs _ _
    exact ⟨f, (stringOpEffect_of_string hs hn).trans hf⟩

@[simp] theorem stringReads_length (p : Addr) (bs : List Byte) :
    (stringReads p bs).length = bs.length + 1 := by
  induction bs generalizing p with
  | nil => rfl
  | cons c cs ih => simp [stringReads, ih]

@[simp] theorem setAccesses_length (m : Memory) (a : Addr) (index : Word) :
    (setAccesses m a index).length = 2 := rfl

/-- How many accesses a command may make: the reads of its string, if it reads one, and six of its
array (70_reset_and_hazards.md R171). -/
def accessBound (i : Instr) (m : Memory) : Nat :=
  (if i.readsString then ((m.string i.arg).getD []).length + 1 else 0) + 6

theorem le_accessBound_of_string {i : Instr} {m : Memory} {bs : List Byte} {k : Nat}
    (hi : i.readsString) (hs : m.string i.arg = some bs) (hk : k ≤ bs.length + 1 + 6) :
    k ≤ accessBound i m := by
  simpa [accessBound, hi, hs] using hk

/-- A command that completes makes no more accesses than its bound. -/
theorem made_length_le_accessBound {i : Instr} {m : Memory} {f : Effect}
    (h : commandEffect i m = .ok f) : f.made.length ≤ accessBound i m := by
  cases i with
  | hash1 | hash2 | hash3 =>
    obtain ⟨bs, hs, rfl⟩ := hashEffect_eq_ok.mp h
    exact le_accessBound_of_string rfl hs (by simp)
  | setbit =>
    obtain ⟨-, rfl⟩ | ⟨-, rfl⟩ | ⟨-, -, a, -, rfl⟩ := setbitEffect_cases h <;> simp [accessBound]
  | getbit =>
    obtain ⟨-, rfl⟩ | ⟨-, rfl⟩ | ⟨-, -, a, -, rfl⟩ :=
      nullThenRange_cases (getbitEffect_eq_nullThenRange.symm.trans h) <;> simp [accessBound]
  | insert =>
    obtain ⟨bs, hs, -, ⟨-, rfl⟩ | ⟨-, a1, a2, a3, -, rfl⟩⟩ := insertEffect_eq_ok.mp h
    · exact le_accessBound_of_string rfl hs (by simp)
    · exact le_accessBound_of_string rfl hs (by simp [insertAccesses])
  | check =>
    obtain ⟨bs, hs, -, ⟨-, rfl⟩ | ⟨-, a1, a2, a3, -, rfl⟩⟩ := checkEffect_eq_ok.mp h
    · exact le_accessBound_of_string rfl hs (by simp)
    · exact le_accessBound_of_string rfl hs (by simp [checkAccesses])

/-! ## The obligations -/

/-- Settles O44: where the duties are met the command has an effect, and every effect keeps to the bound. -/
theorem everyCommandEndsUnderTheDuties : Obligations.EveryCommandEndsUnderTheDuties := by
  intro i s h
  obtain ⟨f, hf⟩ := exists_commandEffect_of_dutiesMet h
  exact ⟨_, f.made, exec_eq_next.mpr ⟨f, hf, rfl⟩, rfl, ⟨_, rfl⟩, rfl, made_length_le_accessBound hf⟩

/-- Settles O52: the command would have completed with its effect, of whose accesses the first
ones are performed. That the input says how many is the model's form (log 7); that a command with no
meaning is refused when cut short too is the model's choice (log 13). -/
theorem resetAbandonsTheCommandInFlight : Obligations.ResetAbandonsTheCommandInFlight := by
  intro s c done rest hm hb hn
  have hstep := step_of_busy_resetNow hb hn
  refine ⟨fun whole hw => ?_, fun f hf => ?_⟩
  · obtain ⟨f, hf, rfl⟩ := runCommand_eq_next.mp hw
    rw [hw, abandon_completed] at hstep
    exact ⟨_, f.made, rfl, hstep, rfl, rfl, rfl, rfl, rfl,
      fun b k => descriptorEffect_mono_take hm hf done⟩
  · rw [hstep, hf, abandon]

/-- Settles O55: a foreign write is the fault, and after any other one the descriptor has the same answer. -/
theorem hostWriteWhileBusy : Obligations.HostWriteWhileBusy := by
  intro s c a v rest _ hb hn
  have hstep := step_of_busy_writeNow hb hn
  refine ⟨fun hu => hstep.trans (if_pos hu), fun hu =>
    ⟨_, hstep.trans (if_neg (by simp [hu])), hb, rfl, rfl, rfl, ?_⟩⟩
  rw [runCommand_eq_outcomeOf, runCommand_eq_outcomeOf, lastResponse_outcomeOf, lastResponse_outcomeOf]
  exact answerOf_descriptorEffect_write v hu

/-- Settles O54: with nothing to do the engine waits (log 14), and at the `IDLE` engine both host writes
are `hostWrite`. -/
theorem idleEngineWaitsAndTheHostMayWrite : Obligations.IdleEngineWaitsAndTheHostMayWrite := by
  refine ⟨fun s => step_of_ended, ?_⟩
  rintro s a v rest hm hi (hn | hn) <;>
    exact ⟨_, step_of_idle hi hn, Memory.read_write_same hm a v,
      fun _ hb => Memory.read_write_other s.mem v hb, hi, rfl, rfl, rfl⟩

end Sys2Proof.Machine
end
